-- ==== Sys2Proof/Word.lean ====
section
/-! DEFINITION. The widths of the block's words. -/

namespace Sys2Proof

/-- An input byte, an output byte, a sample, a command code: exactly 8 bits (R10). -/
abbrev Byte := BitVec 8

/-- The assembled block length: exactly 16 bits (R10, R57). -/
abbrev Length := BitVec 16

end Sys2Proof
end

