-- ==== Sys2Proof/Syntax.lean ====
section
/-! DEFINITION. The instructions: one constructor per row of spec/opcode_table.json. -/

namespace Sys2Proof

/-- The block records of the PTP input stream (R59) and the host's commands (R71).
A command carries its operand whatever its size, and also where the command ignores it (R70; log 21). -/
inductive Instr where
  /-- BLOCK_55: a data record with id 0x55 and its declared length; the payload stays in IN (R56, R57; log 12). -/
  | block55 (len : Length)
  /-- BLOCK_AA: a data record with id 0xAA (R56, R60). -/
  | blockAA (len : Length)
  /-- TERMINATOR: an id that is neither 0x55 nor 0xAA (R59). -/
  | terminator (id : Byte)
  /-- ENCODE_BIT, op 0x01 (R79). -/
  | encodeBit (arg : Nat)
  /-- ENCODE_BYTE, op 0x02 (R81). -/
  | encodeByte (arg : Nat)
  /-- ENCODE_SILENCE, op 0x03 (R83). -/
  | encodeSilence (arg : Nat)
  /-- FILE_SYNC, op 0x04, which ignores its operand (R85). -/
  | fileSync (arg : Nat)
  /-- BLOCK_SYNC, op 0x05, which ignores its operand (R87). -/
  | blockSync (arg : Nat)
  /-- WAV_HEADER, op 0x06 (R125). -/
  | wavHeader (arg : Nat)
  /-- CONVERT, op 0x07, which ignores its operand (R91). -/
  | convert (arg : Nat)
  deriving DecidableEq, Repr

end Sys2Proof
end

