-- ==== Sys2Proof/WellFormed.lean ====
section
/-! DEFINITION. Which terms of `Instr` some encoding spells. -/

namespace Sys2Proof

/-- The id of a terminator is neither 0x55 nor 0xAA (R59). Every other term is spelled by some encoding:
a length has 16 bits by its type (R57), and an operand is any natural (R70); an operand a command does not
accept is an error of the command, not an ill-formed one (R79, R81, R125). -/
def Instr.wellFormed : Instr → Bool
  | .block55 _ => true
  | .blockAA _ => true
  | .terminator id => id != 0x55#8 && id != 0xAA#8
  | .encodeBit _ => true
  | .encodeByte _ => true
  | .encodeSilence _ => true
  | .fileSync _ => true
  | .blockSync _ => true
  | .wavHeader _ => true
  | .convert _ => true

/-- Does the instruction stand in the input stream (a record), or in the command latch? The two id spaces are
decoded apart (R59, R71). -/
def Instr.isRecord : Instr → Bool
  | .block55 _ | .blockAA _ | .terminator _ => true
  | .encodeBit _ | .encodeByte _ | .encodeSilence _ | .fileSync _ | .blockSync _ | .wavHeader _ | .convert _ => false

end Sys2Proof
end

