-- ==== Sys2Proof/Decode.lean ====
section
/-! DEFINITION. The decoder of the two encodings the block reads, the record header in IN (R56 to R59) and the
command latch (R70 to R73), and the encoder written from the same tables. -/

namespace Sys2Proof

/-- CMD as the host writes it: a pair of an 8-bit code and an unbounded natural (R28, R70). -/
structure Command where
  op  : Byte
  arg : Nat
  deriving DecidableEq, Repr

/-- What an instruction is spelled in: the bytes of a record from its id on, or a command. -/
inductive Encoding where
  | stream (bytes : List Byte)
  | command (c : Command)
  deriving DecidableEq, Repr

/-- Why the decoder refuses. -/
inductive Reject where
  /-- No id byte is there. -/
  | endOfStream
  /-- A data id is there, and fewer than two length bytes after it. -/
  | headerCut (id : Byte)
  /-- A command code outside 0x01 to 0x07 (R72). -/
  | unassignedOp (op : Byte)
  deriving DecidableEq, Repr

/-- Is the id one of BLOCK_IDS = 0x55, 0xAA (R8, R59)? -/
def isBlockId (id : Byte) : Bool := id == 0x55#8 || id == 0xAA#8

/-- length = zext_16(len_lo) + 256 * zext_16(len_hi) (R57, R96). -/
def assembleLength (lo hi : Byte) : Length := lo.setWidth 16 + 256#16 * hi.setWidth 16

/-- Decode the record whose bytes begin the list; what follows its header is not looked at (R59, R62, R64). -/
def decodeRecord : List Byte → Except Reject Instr
  | [] => .error .endOfStream
  | id :: rest =>
    if isBlockId id then
      match rest with
      | lo :: hi :: _ =>
        if id = 0x55#8 then .ok (.block55 (assembleLength lo hi)) else .ok (.blockAA (assembleLength lo hi))
      | _ => .error (.headerCut id)
    else .ok (.terminator id)

/-- Decode a command: the code is matched on all 8 bits (R71), every other code is unassigned (R72). -/
def decodeCommand (c : Command) : Except Reject Instr :=
  match c.op with
  | 0x01#8 => .ok (.encodeBit c.arg)
  | 0x02#8 => .ok (.encodeByte c.arg)
  | 0x03#8 => .ok (.encodeSilence c.arg)
  | 0x04#8 => .ok (.fileSync c.arg)
  | 0x05#8 => .ok (.blockSync c.arg)
  | 0x06#8 => .ok (.wavHeader c.arg)
  | 0x07#8 => .ok (.convert c.arg)
  | op => .error (.unassignedOp op)

/-- The decoder, total on both encodings (R64, R73). -/
def decode : Encoding → Except Reject Instr
  | .stream bytes => decodeRecord bytes
  | .command c => decodeCommand c

/-- The three header bytes of a data record: id, len_lo, len_hi (R56). -/
def recordHeader (id : Byte) (len : Length) : List Byte :=
  [id, len.extractLsb' 0 8, len.extractLsb' 8 8]

/-- The encoder: the header bytes of a record, or the command (R56, R59, R71). -/
def encode : Instr → Encoding
  | .block55 len => .stream (recordHeader 0x55#8 len)
  | .blockAA len => .stream (recordHeader 0xAA#8 len)
  | .terminator id => .stream [id]
  | .encodeBit arg => .command ⟨0x01#8, arg⟩
  | .encodeByte arg => .command ⟨0x02#8, arg⟩
  | .encodeSilence arg => .command ⟨0x03#8, arg⟩
  | .fileSync arg => .command ⟨0x04#8, arg⟩
  | .blockSync arg => .command ⟨0x05#8, arg⟩
  | .wavHeader arg => .command ⟨0x06#8, arg⟩
  | .convert arg => .command ⟨0x07#8, arg⟩

/-- A block record with its payload, as the stream holds it (R56). -/
structure Record where
  id      : Byte
  payload : List Byte
  deriving DecidableEq, Repr

/-- A record the format can write: a data id, and a payload whose length fits 16 bits (R56, R57). -/
def Record.wellFormed (r : Record) : Bool := isBlockId r.id && decide (r.payload.length ≤ 65535)

/-- All bytes of a record: header and payload, 3 + length of them (R56, R58). -/
def Record.bytes (r : Record) : List Byte :=
  recordHeader r.id (BitVec.ofNat 16 r.payload.length) ++ r.payload

/-- The first `k` bytes of a table word, the byte with bit 0 first (the numbering of spec/opcode_table.json). -/
def wordBytes : Nat → Nat → List Byte
  | 0, _ => []
  | k + 1, w => BitVec.ofNat 8 w :: wordBytes k (w / 256)

/-- Does the table word spell a command? Its low byte is then one of the seven codes (R71). -/
def isCommandWord (w : Nat) : Bool :=
  let op := w % 256
  decide (1 ≤ op) && decide (op ≤ 7)

/-- The command a table word spells: op in the low byte, the operand in all bits above it (R70). -/
def wordCommand (w : Nat) : Command := ⟨BitVec.ofNat 8 w, w / 256⟩

/-- A table word of `nbits` bits: every bit above them is 0. -/
def tableWord (nbits w : Nat) : Nat := w % 2 ^ nbits

/-- The instruction the decoder reads from a word numbered as spec/opcode_table.json numbers its rows. The
table lists both encodings in one numbering, so the words 0x01 to 0x07 are the commands' there and every other
low byte is a record's id (log 11). -/
def decodeTableWord (nbits w : Nat) : Option Instr :=
  let v := tableWord nbits w
  if isCommandWord v then (decodeCommand (wordCommand v)).toOption
  else (decodeRecord (wordBytes 3 v)).toOption

end Sys2Proof
end

