-- ==== Sys2Proof/Machine/State.lean ====
section
/-! DEFINITION. The state of one block as plain data, its value after reset, and the reasons a step can stop. -/

namespace Sys2Proof.Machine

open Sys2Proof

/-- PHASE, the state of the converter state machine (R26). -/
inductive Phase where
  | idle | init | leadIn | scan | tail | final | done | error
  deriving DecidableEq, Repr

/-- ERR, the error status (R27, R126). Codes 6 and 7 are never written and have no name here (I13; log 20). -/
inductive Err where
  | none | invalidByte | truncatedInput | sizeOverflow | invalidOperand | unknownCommand
  deriving DecidableEq, Repr

/-- A latch that may hold no value yet: R37 says CUR, ID and LEN hold "no value" after reset. `held` says whether
something has been written; `value` is what was written, and is there to be read in any case (log 3). -/
structure Latch (α : Type) where
  value : α
  held  : Bool
  deriving DecidableEq, Repr

/-- The input memory as (offset, byte) cells in one canonical form (`Memory.wf`). -/
abbrev Memory := List Host.Cell

/-- The whole state of one block. -/
structure State where
  /-- IN (R21). -/
  input : Memory
  /-- N, the length of IN (R22). -/
  n : Nat
  /-- OUT (R23): offset k of the buffer is element k of the list (R42; log 9). -/
  out : List Byte
  /-- CUR (R24). -/
  cur : Latch Nat
  /-- ID (R25). -/
  id : Latch Byte
  /-- LEN (R25). -/
  len : Latch Length
  /-- PHASE (R26). -/
  phase : Phase
  /-- ERR (R27). -/
  err : Err
  /-- CMD (R28). -/
  cmd : Command
  /-- The host has issued the command in CMD and the block has not yet accepted it (R28, R90; log 1). -/
  issued : Bool
  /-- The host has written IN since the last reset: the record of a host duty (R150), which no step reads (log 7). -/
  inputLoaded : Bool
  deriving DecidableEq, Repr

/-- The block after reset (R37, R147): IDLE, NONE, OUT empty, no latch holds a value, nothing issued. IN, N and
CMD are the host's, and the spec gives no value; the model's is empty, 0 and (0, 0) (log 4). -/
def State.reset : State where
  input := []
  n := 0
  out := []
  cur := ⟨0, false⟩
  id := ⟨0#8, false⟩
  len := ⟨0#16, false⟩
  phase := .idle
  err := .none
  cmd := ⟨0#8, 0⟩
  issued := false
  inputLoaded := false

/-- What stops the machine. -/
inductive Fault where
  /-- A read of IN at an offset that is not below N, which R41 forbids. Raised by the reads of Machine/Ops.lean
  through the SCAN step; safe (the model stops where a machine would read undefined memory). No state makes a
  step raise it (log 19). -/
  | readPastInput
  deriving DecidableEq, Repr

/-- Why an instruction has no meaning. -/
inductive Refusal where
  /-- The instruction has no meaning in the model yet. Raised by a refused arm of `exec` only; safe. No arm is
  refused in this model. -/
  | notModelled (mnemonic : String)
  deriving DecidableEq, Repr

end Sys2Proof.Machine
end

