-- ==== Sys2Proof/Machine/Params.lean ====
section
/-! DEFINITION. The constants of the block, which neither the host nor an installation can vary (R3 to R9, R30). -/

namespace Sys2Proof.Machine

/-- SILENCE (R3, R65). -/
def silenceLevel : Byte := 128#8
/-- POS_PEAK (R3, R65). -/
def posPeak : Byte := 248#8
/-- NEG_PEAK (R3, R65). -/
def negPeak : Byte := 8#8

/-- LONG_HALF, the half-length of bit 0's pulse pair (R4). -/
def longHalf : Nat := 8
/-- SHORT_HALF, the half-length of bit 1's pulse pair (R4). -/
def shortHalf : Nat := 3

/-- LEAD_SILENCE (R5, C7). -/
def leadSilence : Nat := 2000
/-- TAIL_SILENCE (R5). -/
def tailSilence : Nat := 1000

/-- FILE_SYNC_BYTE (R6). -/
def fileSyncByte : Byte := 0xAA#8
/-- FILE_SYNC_COUNT (R6). -/
def fileSyncCount : Nat := 512

/-- The lead byte of the block sync (R7). -/
def blockSyncLead : Byte := 0xFF#8
/-- BLOCK_SYNC_LEAD_COUNT (R7). -/
def blockSyncLeadCount : Nat := 96
/-- The mark byte of the block sync (R7). -/
def blockSyncMark : Byte := 0xD3#8
/-- BLOCK_SYNC_MARK_COUNT (R7). -/
def blockSyncMarkCount : Nat := 3

/-- LEAD_IN_BYTES (R8). -/
def leadInBytes : Nat := 3
/-- The bytes of a record before its payload (R56). -/
def recordHeaderBytes : Nat := 3

/-- RIFF_BIAS (R9). -/
def riffBias : Nat := 36
/-- FMT_CHUNK_SIZE (R9). -/
def fmtChunkSize : Nat := 16
/-- AUDIO_FORMAT, PCM (R9). -/
def audioFormat : Nat := 1
/-- CHANNELS (R9). -/
def channels : Nat := 1
/-- SAMPLE_RATE (R9). -/
def sampleRate : Nat := 8000
/-- BYTE_RATE (R9). -/
def byteRate : Nat := 8000
/-- BLOCK_ALIGN (R9). -/
def blockAlign : Nat := 1
/-- BITS_PER_SAMPLE (R9). -/
def bitsPerSample : Nat := 8

/-- The largest sample count a header can describe, 2^32 - 37 (R124). -/
def maxSamples : Nat := 4294967259

/-- The ASCII tags of the WAV chunks (R16; log 17). -/
def tagRiff : List Byte := [0x52#8, 0x49#8, 0x46#8, 0x46#8]
def tagWave : List Byte := [0x57#8, 0x41#8, 0x56#8, 0x45#8]
def tagFmt  : List Byte := [0x66#8, 0x6D#8, 0x74#8, 0x20#8]
def tagData : List Byte := [0x64#8, 0x61#8, 0x74#8, 0x61#8]

/-- What an offset of IN that no cell lists reads as (log 5). -/
def unlistedByte : Byte := 0#8

/-- How long `count` samples play, in microseconds: one sample period is 125 (R18, R157, R159). -/
def playMicros (count : Nat) : Nat := count * 125

end Sys2Proof.Machine
end

