-- ==== Sys2Proof/Machine/Ops.lean ====
section
/-! DEFINITION. The shared operations: the input memory, the output buffer, the latches, byte order, raising an
error and delivering a result. No meaning touches the state in another way (R14). -/

namespace Sys2Proof.Machine

/-! ### The input memory -/

/-- The canonical form: offsets strictly rising, and no cell that lists what an unlisted offset reads as. -/
abbrev Memory.wf (m : Memory) : Prop :=
  (m.map Prod.fst).Pairwise (· < ·) ∧ ∀ c ∈ m, c.2 ≠ unlistedByte

/-- The byte at an offset (R41); the check that the offset lies below N is `State.byteAt`. -/
def Memory.read : Memory → Nat → Byte
  | [], _ => unlistedByte
  | (k, v) :: rest, a => if a = k then v else Memory.read rest a

/-- The list beginning with the cell (a, b), or without it where b is what an unlisted offset reads as. -/
def Memory.cell (a : Nat) (b : Byte) (rest : Memory) : Memory :=
  if b = unlistedByte then rest else (a, b) :: rest

/-- Write one byte, keeping the canonical form. Only the host writes IN (R21). -/
def Memory.write : Memory → Nat → Byte → Memory
  | [], a, b => Memory.cell a b []
  | (k, v) :: rest, a, b =>
    if a < k then Memory.cell a b ((k, v) :: rest)
    else if a = k then Memory.cell a b rest
    else (k, v) :: Memory.write rest a b

/-- Write consecutive bytes from an offset on. -/
def Memory.load (m : Memory) (a : Nat) : List Byte → Memory
  | [] => m
  | b :: bs => Memory.load (Memory.write m a b) (a + 1) bs

/-- The memory that holds exactly these bytes from offset 0 on. -/
def Memory.ofBytes (bs : List Byte) : Memory := Memory.load [] 0 bs

/-- IN[a], defined only for a < N (R14, R41). -/
def State.byteAt (s : State) (a : Nat) : Option Byte :=
  if a < s.n then some (Memory.read s.input a) else none

/-- IN[a : a + k], one byte at a time in increasing offset order (R46, R99). -/
def State.bytesAt (s : State) (a : Nat) : Nat → Option (List Byte)
  | 0 => some []
  | k + 1 =>
    match s.byteAt a with
    | none => none
    | some b => (State.bytesAt s (a + 1) k).map (b :: ·)

/-- IN as the sequence of its N bytes (R21, R22). -/
def State.inBytes (s : State) : List Byte := (List.range s.n).map (Memory.read s.input)

/-- The host writes the whole image into IN and sets N to its length (R150). -/
def State.loadInput (bytes : List Byte) (s : State) : State :=
  { s with input := Memory.ofBytes bytes, n := bytes.length, inputLoaded := true }

/-! ### Latches -/

/-- R <- v for a latch (R14). -/
def Latch.write {α : Type} (v : α) : Latch α := ⟨v, true⟩

/-- What the latch holds: "no value" until something has been written (R37). -/
def Latch.contents {α : Type} (l : Latch α) : Option α := if l.held then some l.value else none

/-- CUR <- c (R93, R100). -/
def State.setCur (c : Nat) (s : State) : State := { s with cur := Latch.write c }

/-- ID <- b (R95). -/
def State.setId (b : Byte) (s : State) : State := { s with id := Latch.write b }

/-- LEN <- l (R96). -/
def State.setLen (l : Length) (s : State) : State := { s with len := Latch.write l }

/-- PHASE <- p: the next step is phase p (R14). -/
def State.setPhase (p : Phase) (s : State) : State := { s with phase := p }

/-- ERR <- NONE, which every accepted command does first (R27, R153). -/
def State.clearErr (s : State) : State := { s with err := .none }

/-- Acceptance reads CMD once: the command is no longer waiting (R28, R153). -/
def State.takeCommand (s : State) : State := { s with issued := false }

/-! ### The output buffer -/

/-- OUT <- OUT ++ xs (R14, R43). -/
def State.append (xs : List Byte) (s : State) : State := { s with out := s.out ++ xs }

/-- OUT <- xs (R43). -/
def State.replaceOut (xs : List Byte) (s : State) : State := { s with out := xs }

/-- OUT <- result; PHASE <- DONE: a command ends in success (R79 to R87, R125). -/
def State.deliver (xs : List Byte) (s : State) : State := { s with out := xs, phase := .done }

/-- raise E: the abort every error makes (R131). -/
def State.raise (e : Err) (s : State) : State := { s with out := [], err := e, phase := .error }

/-- A one-step command: ERR <- NONE, then its result or its error (R131, R153, and the common part of
40_waveform_encoder.md). -/
def State.answer (r : Except Err (List Byte)) (s : State) : State :=
  match r with
  | .ok xs => s.clearErr.deliver xs
  | .error e => s.clearErr.raise e

/-! ### Byte order -/

/-- The little-endian bytes of a 16-bit value (R38). -/
def le16 (v : Nat) : List Byte := [BitVec.ofNat 8 v, BitVec.ofNat 8 (v / 2 ^ 8)]

/-- The little-endian bytes of a 32-bit value (R38). -/
def le32 (v : Nat) : List Byte :=
  [BitVec.ofNat 8 v, BitVec.ofNat 8 (v / 2 ^ 8), BitVec.ofNat 8 (v / 2 ^ 16), BitVec.ofNat 8 (v / 2 ^ 24)]

/-- The value of a little-endian byte sequence (R38). -/
def fromLe : List Byte → Nat
  | [] => 0
  | b :: bs => b.toNat + 256 * fromLe bs

end Sys2Proof.Machine
end

