-- ==== Sys2Proof/Machine/Operands.lean ====
section
/-! DEFINITION. The operand forms: what a command accepts of its natural operand, and the record's payload. -/

namespace Sys2Proof.Machine

/-- The operand of ENCODE_BIT: 0 or 1, anything larger is InvalidOperandError (R79, R132). -/
def bitOperand (arg : Nat) : Except Err Bool :=
  if arg > 1 then .error .invalidOperand else .ok (arg == 1)

/-- The operand of ENCODE_BYTE: 0 to 255, anything larger is InvalidByteError (R81, R127). -/
def byteOperand (arg : Nat) : Except Err Byte :=
  if arg > 255 then .error .invalidByte else .ok (BitVec.ofNat 8 arg)

/-- The operand of ENCODE_SILENCE: any natural (R83). -/
def countOperand (arg : Nat) : Except Err Nat := .ok arg

/-- The sample count a header is asked for: beyond 2^32 - 37 it is SizeOverflowError (R124, R129). -/
def sizeOperand (count : Nat) : Except Err Nat :=
  if count > maxSamples then .error .sizeOverflow else .ok count

/-- The offset of the payload's first byte in the record at `c` (R56). -/
def payloadOffset (c : Nat) : Nat := c + recordHeaderBytes

/-- Where the record at `c` ends, which is where the next one starts (R58). -/
def recordEnd (c : Nat) (len : Length) : Nat := c + recordHeaderBytes + len.toNat

end Sys2Proof.Machine
end

