-- ==== Sys2Proof/Machine/WavHeader.lean ====
section
/-! DEFINITION. The WAV header composer (42_wav_header.md). -/

namespace Sys2Proof.Machine

/-- wavHeader(count), the fields in offset order; defined for count up to 2^32 - 37 (R110 to R123). -/
def wavHeaderBytes (count : Nat) : List Byte :=
  tagRiff ++ le32 (riffBias + count) ++ tagWave ++ tagFmt ++ le32 fmtChunkSize ++ le16 audioFormat ++ le16 channels
    ++ le32 sampleRate ++ le32 byteRate ++ le16 blockAlign ++ le16 bitsPerSample ++ tagData ++ le32 count

/-- The WAV container of a sample sequence, or SizeOverflowError where no header can describe it (R69, R102, R124). -/
def wavContainer (samples : List Byte) : Except Err (List Byte) :=
  (sizeOperand samples.length).map fun count => wavHeaderBytes count ++ samples

/-- WAV_HEADER (R125). -/
def execWavHeader (arg : Nat) (s : State) : Host.Outcome State Fault Refusal :=
  .next (s.answer ((sizeOperand arg).map wavHeaderBytes))

end Sys2Proof.Machine
end

