-- ==== Sys2Proof/Machine/Waveform.lean ====
section
/-! DEFINITION. The waveform encoder's functions (40_waveform_encoder.md). They are pure: the converter appends
their results and the commands return them (R88). -/

namespace Sys2Proof.Machine

/-- A run of POS_PEAK and a run of NEG_PEAK of the same length (R66). -/
def pulsePair (half : Nat) : List Byte := List.replicate half posPeak ++ List.replicate half negPeak

/-- The pulse pair of one bit: long for 0, short for 1 (R66, R78). -/
def bitPulses (bit : Bool) : List Byte := pulsePair (if bit then shortHalf else longHalf)

/-- The bit positions in the order they go out: most significant first (R39). -/
def bitOrder : List Nat := [7, 6, 5, 4, 3, 2, 1, 0]

/-- The pulse pairs of the eight bits of a byte (R67, R80). -/
def bytePulses (b : Byte) : List Byte := bitOrder.flatMap fun i => bitPulses (b.getLsbD i)

/-- Bytes in increasing order, each encoded (R69, R99). -/
def payloadPulses (bytes : List Byte) : List Byte := bytes.flatMap bytePulses

/-- `count` samples of SILENCE (R69, R82). -/
def silence (count : Nat) : List Byte := List.replicate count silenceLevel

/-- The file sync preamble (R6, R84). -/
def fileSyncPulses : List Byte := payloadPulses (List.replicate fileSyncCount fileSyncByte)

/-- The block sync marker (R7, R86). -/
def blockSyncPulses : List Byte :=
  payloadPulses (List.replicate blockSyncLeadCount blockSyncLead)
    ++ payloadPulses (List.replicate blockSyncMarkCount blockSyncMark)

/-- Is the byte one of the three sample levels (R3)? -/
def isLevel (b : Byte) : Bool := b == silenceLevel || b == posPeak || b == negPeak

end Sys2Proof.Machine
end

