-- ==== Sys2Proof/Machine/Converter.lean ====
section
/-! DEFINITION. The block stream converter (41_block_stream_converter.md): the command CONVERT, the meanings of the
records its SCAN step runs, and the steps of the other phases. -/

namespace Sys2Proof.Machine

/-- CONVERT, the acceptance step; the operand is ignored (R91). -/
def execConvert (_arg : Nat) (s : State) : Host.Outcome State Fault Refusal :=
  .next (s.clearErr.setPhase .init)

/-- A data record at CUR whose header has been read: latch it, check that its payload lies within IN, emit the block
sync and the encoded payload, advance CUR (R95 to R100; log 12, log 13). -/
def runBlock (id : Byte) (len : Length) (s : State) : Host.Outcome State Fault Refusal :=
  let latched := (s.setId id).setLen len
  let c := s.cur.value
  if recordEnd c len > s.n then .next (latched.raise .truncatedInput)
  else
    match s.bytesAt (payloadOffset c) len.toNat with
    | none => .fault .readPastInput
    | some payload => .next ((latched.append (blockSyncPulses ++ payloadPulses payload)).setCur (recordEnd c len))

/-- BLOCK_55 (R95 to R100). -/
def execBlock55 (len : Length) (s : State) : Host.Outcome State Fault Refusal := runBlock 0x55#8 len s

/-- BLOCK_AA, treated as BLOCK_55 (R60, R95 to R100). -/
def execBlockAA (len : Length) (s : State) : Host.Outcome State Fault Refusal := runBlock 0xAA#8 len s

/-- TERMINATOR: the scan ends normally, OUT and ERR are kept (R95, R133). -/
def execTerminator (id : Byte) (s : State) : Host.Outcome State Fault Refusal :=
  .next ((s.setId id).setPhase .tail)

/-- The INIT step (R92). -/
def initStep (s : State) : State := (s.replaceOut []).setPhase .leadIn

/-- The LEADIN step (R93). -/
def leadInStep (s : State) : State :=
  (((s.append (silence leadSilence)).append fileSyncPulses).setCur leadInBytes).setPhase .scan

/-- The loop guard of the SCAN step: CUR + 3 < N (R94). -/
def scanGuard (s : State) : Bool := decide (s.cur.value + recordHeaderBytes < s.n)

/-- The TAIL step (R101). -/
def tailStep (s : State) : State := (s.append (silence tailSilence)).setPhase .final

/-- The FINAL step (R102). -/
def finalStep (s : State) : State :=
  match wavContainer s.out with
  | .ok bytes => s.deliver bytes
  | .error e => s.raise e

end Sys2Proof.Machine
end

