-- ==== Sys2Proof/Machine/Encoder.lean ====
section
/-! DEFINITION. The encoder commands (40_waveform_encoder.md), each one step. -/

namespace Sys2Proof.Machine

/-- ENCODE_BIT (R79). -/
def execEncodeBit (arg : Nat) (s : State) : Host.Outcome State Fault Refusal :=
  .next (s.answer ((bitOperand arg).map bitPulses))

/-- ENCODE_BYTE (R81). -/
def execEncodeByte (arg : Nat) (s : State) : Host.Outcome State Fault Refusal :=
  .next (s.answer ((byteOperand arg).map bytePulses))

/-- ENCODE_SILENCE (R83). -/
def execEncodeSilence (arg : Nat) (s : State) : Host.Outcome State Fault Refusal :=
  .next (s.answer ((countOperand arg).map silence))

/-- FILE_SYNC; the operand is ignored (R85). -/
def execFileSync (_arg : Nat) (s : State) : Host.Outcome State Fault Refusal :=
  .next (s.answer (.ok fileSyncPulses))

/-- BLOCK_SYNC; the operand is ignored (R87). -/
def execBlockSync (_arg : Nat) (s : State) : Host.Outcome State Fault Refusal :=
  .next (s.answer (.ok blockSyncPulses))

end Sys2Proof.Machine
end

