-- ==== Sys2Proof/Machine/Dispatch.lean ====
section
/-! DEFINITION. One arm per instruction. -/

namespace Sys2Proof.Machine

def exec (i : Instr) (s : State) : Host.Outcome State Fault Refusal :=
  match i with
  | .block55 len => Sys2Proof.Machine.execBlock55 len s
  | .blockAA len => Sys2Proof.Machine.execBlockAA len s
  | .terminator id => Sys2Proof.Machine.execTerminator id s
  | .encodeBit arg => Sys2Proof.Machine.execEncodeBit arg s
  | .encodeByte arg => Sys2Proof.Machine.execEncodeByte arg s
  | .encodeSilence arg => Sys2Proof.Machine.execEncodeSilence arg s
  | .fileSync arg => Sys2Proof.Machine.execFileSync arg s
  | .blockSync arg => Sys2Proof.Machine.execBlockSync arg s
  | .wavHeader arg => Sys2Proof.Machine.execWavHeader arg s
  | .convert arg => Sys2Proof.Machine.execConvert arg s

end Sys2Proof.Machine
end

