-- ==== Sys2Proof/Machine/Flags.lean ====
section
/-! DEFINITION. The block has no condition flags (R29): what a step decides is recorded in PHASE and ERR. Their
codes, the STATUS word, and the phases in which the block accepts a command. -/

namespace Sys2Proof.Machine

/-- The 3-bit code of PHASE (R26). -/
def Phase.code : Phase → BitVec 3
  | .idle => 0#3
  | .init => 1#3
  | .leadIn => 2#3
  | .scan => 3#3
  | .tail => 4#3
  | .final => 5#3
  | .done => 6#3
  | .error => 7#3

/-- The 3-bit code of ERR (R126). -/
def Err.code : Err → BitVec 3
  | .none => 0#3
  | .invalidByte => 1#3
  | .truncatedInput => 2#3
  | .sizeOverflow => 3#3
  | .invalidOperand => 4#3
  | .unknownCommand => 5#3

/-- STATUS: bits 2:0 PHASE, bits 5:3 ERR, bits 7:6 read as 0 (R31). DESIGN CHOICE: between the issue of a command and its
acceptance it still shows the outcome of the command before (log 22). -/
def State.status (s : State) : Byte := 0#2 ++ s.err.code ++ s.phase.code

/-- IDLE, DONE and ERROR: no command is in progress, and one is accepted (R35, R153). -/
def Phase.quiescent : Phase → Bool
  | .idle | .done | .error => true
  | .init | .leadIn | .scan | .tail | .final => false

/-- INIT to FINAL: a conversion is in progress (R53). -/
def Phase.busy (p : Phase) : Bool := !p.quiescent

/-- The outcome of a command: (PHASE, ERR, OUT) (R156). -/
def State.outcome (s : State) : Phase × Err × List Byte := (s.phase, s.err, s.out)

end Sys2Proof.Machine
end

