-- ==== Sys2Proof/Machine/Fetch.lean ====
section
/-! DEFINITION. Fetching a record's header from IN, and placing an instruction where the next step fetches it. -/

namespace Sys2Proof.Machine

/-- The bytes of the record at CUR that its decoding reads: the id, and for a data id the two length bytes; of a
terminator nothing beyond the id is read (R59, R62, R95, R96). -/
def fetchRecord (s : State) : Option (List Byte) :=
  match s.byteAt s.cur.value with
  | none => none
  | some id => if isBlockId id then s.bytesAt s.cur.value recordHeaderBytes else some [id]

/-- The bytes a record word occupies: the id, and for a data id the rest of the header and as many payload bytes as
it declares (R56). -/
def recordWordBytes (v : Nat) : List Byte :=
  if isBlockId (BitVec.ofNat 8 v) then wordBytes (recordHeaderBytes + v / 256 % 65536) v else wordBytes 1 v

/-- The first `k` bytes of the list, filled up with zero bytes. -/
def fillTo (k : Nat) (bytes : List Byte) : List Byte := (bytes ++ List.replicate k unlistedByte).take k

/-- `old` with `new` written at offset `c`, and zero bytes after it as far as the loop guard of R94 asks. -/
def placeBytes (c : Nat) (new old : List Byte) : List Byte :=
  let image := fillTo c old ++ new ++ old.drop (c + new.length)
  if image.length ≤ c + recordHeaderBytes then fillTo (c + recordHeaderBytes + 1) image else image

/-- Place a record at CUR, in a conversion that is scanning; where none is scanning, at offset 3, as LEADIN would
begin the scan (R93). -/
def placeRecord (v : Nat) (s : State) : State :=
  let c := if s.phase = .scan then s.cur.value else leadInBytes
  ((s.loadInput (placeBytes c (recordWordBytes v) s.inBytes)).setCur c).setPhase .scan

/-- Place a command in CMD and issue it, in a block that accepts one (R70, R153). -/
def placeCommand (c : Command) (s : State) : State :=
  { s with cmd := c, issued := true, phase := if s.phase.quiescent then s.phase else .idle }

/-- Place the instruction of a table word where the next step takes it from (log 10, log 11). -/
def placeWord (s : State) (nbits w : Nat) : State :=
  let v := tableWord nbits w
  if isCommandWord v then placeCommand (wordCommand v) s else placeRecord v s

end Sys2Proof.Machine
end

