-- ==== Sys2Proof/Machine/Sequencer.lean ====
section
/-! DEFINITION. The sequencer: which step PHASE fixes (R35). -/

namespace Sys2Proof.Machine

/-- The acceptance step: read CMD once and run its command, or abort an unassigned one (R130, R135, R153). -/
def acceptStep (s : State) : Host.Outcome State Fault Refusal :=
  match decodeCommand s.cmd with
  | .ok i => exec i s.takeCommand
  | .error _ => .next (s.takeCommand.clearErr.raise .unknownCommand)

/-- The SCAN step: the loop guard, then the record at CUR (R94 to R100). -/
def scanStep (s : State) : Host.Outcome State Fault Refusal :=
  if scanGuard s then
    match fetchRecord s with
    | none => .fault .readPastInput
    | some bytes =>
      match decodeRecord bytes with
      | .ok i => exec i s
      | .error _ => .fault .readPastInput
  else .next (s.setPhase .tail)

/-- In IDLE, DONE and ERROR: accept an issued command, or wait, leaving every piece of state as it is (R35, R146;
log 2). -/
def quiescentStep (s : State) : Host.Outcome State Fault Refusal :=
  if s.issued then acceptStep s else .next s

/-- One step of the block: PHASE alone fixes which (R35, R90). -/
def blockStep (s : State) : Host.Outcome State Fault Refusal :=
  match s.phase with
  | .idle => quiescentStep s
  | .init => .next (initStep s)
  | .leadIn => .next (leadInStep s)
  | .scan => scanStep s
  | .tail => .next (tailStep s)
  | .final => .next (finalStep s)
  | .done => quiescentStep s
  | .error => quiescentStep s

end Sys2Proof.Machine
end

