-- ==== Sys2Proof/Machine/Step.lean ====
section
/-! DEFINITION. One step, and where its next instruction is fetched from. -/

namespace Sys2Proof.Machine

/-- One step of the block. -/
def step (s : State) : Host.Outcome State Fault Refusal := blockStep s

/-- `s` with an instruction, given as a word of spec/opcode_table.json, stored where the next step fetches it. -/
def State.withFetchWord (s : State) (nbits w : Nat) : State := placeWord s nbits w

end Sys2Proof.Machine
end

