-- ==== Sys2Proof/Machine/HostPort.lean ====
section
/-! DEFINITION. What the host can do to a block, and what it can read (R152). A move the host must not make gives no
state (log 8). -/

namespace Sys2Proof.Machine

/-- The moves of the host that may change something. -/
inductive HostMove where
  /-- Write the whole image into IN and set N (R150). -/
  | loadInput (bytes : List Byte)
  /-- Write CMD, which issues the command (R28). -/
  | issue (c : Command)
  /-- Write STATUS, which is ignored (R31). -/
  | writeStatus (v : Byte)
  /-- Reset the block (R147). -/
  | reset
  deriving DecidableEq, Repr

/-- Is the command CONVERT (R71)? -/
def isConvert (c : Command) : Bool := c.op == 0x07#8

/-- May the host issue the command now: only in IDLE, DONE or ERROR, and CONVERT only when IN has been written
(R150, R153). -/
def State.mayIssue (c : Command) (s : State) : Bool := s.phase.quiescent && (!isConvert c || s.inputLoaded)

/-- A reset in any phase: the block's own state as after reset. IN, N and CMD are the host's and are not written, but
count as unwritten: the host must write them before use (R37, R147; log 6). -/
def State.restart (s : State) : State := { State.reset with input := s.input, n := s.n, cmd := s.cmd }

/-- The state after a host move, or none where a duty forbids the move (R152). -/
def hostMove : HostMove → State → Option State
  | .loadInput bytes, s => if s.phase.quiescent then some (s.loadInput bytes) else none
  | .issue c, s => if s.mayIssue c then some { s with cmd := c, issued := true } else none
  | .writeStatus _, s => some s
  | .reset, s => some s.restart

/-- What the host reads of OUT: the result in DONE, and nothing in another phase (R33, R154). DESIGN CHOICE: between the
issue of a command in DONE and its acceptance PHASE is still DONE, so the host still reads the earlier command's result
(log 22). -/
def State.readOut (s : State) : Option (List Byte) := if s.phase = .done then some s.out else none

end Sys2Proof.Machine
end

