-- ==== Sys2Proof/Machine/Listing.lean ====
section
/-! DEFINITION. The listing notation of commands and PTP inputs (R74 to R77). It expands to the bytes of IN and to CMD
words, and has no meaning of its own. -/

namespace Sys2Proof.Machine

/-- The directives that write bytes of IN (R75). -/
inductive Directive where
  | lead (b0 b1 b2 : Byte)
  | block (id : Byte) (payload : List Byte)
  | blockhdr (id : Byte) (len : Length)
  | db (bytes : List Byte)
  deriving DecidableEq, Repr

/-- `block` is for payloads of at most 65535 bytes (R75). -/
def Directive.wellFormed : Directive → Bool
  | .lead _ _ _ => true
  | .block _ payload => decide (payload.length ≤ 65535)
  | .blockhdr _ _ => true
  | .db _ => true

/-- What a directive expands to (R75). -/
def Directive.bytes : Directive → List Byte
  | .lead b0 b1 b2 => [b0, b1, b2]
  | .block id payload => Record.bytes ⟨id, payload⟩
  | .blockhdr id len => recordHeader id len
  | .db bytes => bytes

/-- IN is the concatenation of the expansions, with nothing added (R77). -/
def listingBytes (ds : List Directive) : List Byte := ds.flatMap Directive.bytes

/-- One line of a listing. -/
inductive Line where
  | blank
  | directive (d : Directive)
  | command (c : Command)
  deriving DecidableEq, Repr

/-- What a listing stands for: the bytes of IN, and the commands in order. -/
structure Program where
  input    : List Byte
  commands : List Command
  deriving DecidableEq, Repr

/-- The host's moves for a program: load IN, and issue each command (R151); the block runs in between. -/
def Program.moves (p : Program) : List HostMove := .loadInput p.input :: p.commands.map .issue

/-! ### The text of a line (R74, R75; log 18) -/

/-- The value of a digit in a base of at most 16. -/
def digitValue (base : Nat) (c : Char) : Option Nat :=
  let k := c.toNat
  let v := if 48 ≤ k ∧ k ≤ 57 then k - 48 else if 97 ≤ k ∧ k ≤ 102 then k - 87 else if 65 ≤ k ∧ k ≤ 70 then k - 55 else 16
  if v < base then some v else none

/-- A number of at least one digit, the first digit the most significant. -/
def digitsValue (base : Nat) (ds : List Char) : Option Nat :=
  if ds.isEmpty then none
  else ds.foldl (fun acc d => acc.bind fun n => (digitValue base d).map (base * n + ·)) (some 0)

/-- A decimal or 0x hexadecimal natural (R74). -/
def numberText : List Char → Option Nat
  | '0' :: 'x' :: ds => digitsValue 16 ds
  | ds => digitsValue 10 ds

/-- A number that is a byte. -/
def byteText (cs : List Char) : Option Byte :=
  (numberText cs).bind fun n => if n ≤ 255 then some (BitVec.ofNat 8 n) else none

/-- What stands between two words of a line. -/
def isSeparator (c : Char) : Bool := c == ' ' || c == '\t' || c == ',' || c == '[' || c == ']'

/-- The words of a line, less its comment (R74). -/
def lineWords (cs : List Char) : List (List Char) :=
  ((cs.takeWhile (· != ';')).splitOnP isSeparator).filter (! ·.isEmpty)

/-- The mnemonics, their codes, and whether the operand is used (R71). -/
def mnemonicTable : List (String × Byte × Bool) :=
  [("ENCODE_BIT", 0x01#8, true), ("ENCODE_BYTE", 0x02#8, true), ("ENCODE_SILENCE", 0x03#8, true),
   ("FILE_SYNC", 0x04#8, false), ("BLOCK_SYNC", 0x05#8, false), ("WAV_HEADER", 0x06#8, true), ("CONVERT", 0x07#8, false)]

/-- A command line: a mnemonic, and its operand where it uses one; an operand that is ignored may be left out. -/
def commandText (name : List Char) (args : List (List Char)) : Option Command :=
  match mnemonicTable.find? (fun row => row.1.toList == name) with
  | none => none
  | some (_, op, uses) =>
    match args with
    | [] => if uses then none else some ⟨op, 0⟩
    | [arg] => (numberText arg).map (⟨op, ·⟩)
    | _ => none

/-- The line of a directive (R75), of a raw CMD word (95_test_vectors.md P5), or of a command (R74). -/
def wordsLine : List (List Char) → Option Line
  | [] => some .blank
  | name :: args =>
    if name = "lead".toList then
      match args.mapM byteText with
      | some [] => some (.directive (.lead 0#8 0#8 0#8))
      | some [b0, b1, b2] => some (.directive (.lead b0 b1 b2))
      | _ => none
    else if name = "block".toList then
      match args.mapM byteText with
      | some (id :: payload) =>
        if payload.length ≤ 65535 then some (.directive (.block id payload)) else none
      | _ => none
    else if name = "blockhdr".toList then
      match args with
      | [id, len] =>
        match byteText id, numberText len with
        | some b, some l => if l ≤ 65535 then some (.directive (.blockhdr b (BitVec.ofNat 16 l))) else none
        | _, _ => none
      | _ => none
    else if name = "db".toList then (args.mapM byteText).map fun bytes => .directive (.db bytes)
    else if name = "db-cmd".toList then
      match args.mapM numberText with
      | some [op] => if op ≤ 255 then some (.command ⟨BitVec.ofNat 8 op, 0⟩) else none
      | some [op, arg] => if op ≤ 255 then some (.command ⟨BitVec.ofNat 8 op, arg⟩) else none
      | _ => none
    else (commandText name args).map .command

/-- A line of text: one command or directive, and a comment after `;` (R74). -/
def parseLine (cs : List Char) : Option Line := wordsLine (lineWords cs)

/-- The directives of the lines, in order. -/
def lineDirectives (ls : List Line) : List Directive :=
  ls.filterMap fun l => match l with
    | .directive d => some d
    | .blank => none
    | .command _ => none

/-- The commands of the lines, in order. -/
def lineCommands (ls : List Line) : List Command :=
  ls.filterMap fun l => match l with
    | .command c => some c
    | .blank => none
    | .directive _ => none

/-- A listing, one line of text each (R74, R77). -/
def assemble (text : List (List Char)) : Option Program :=
  (text.mapM parseLine).map fun ls => ⟨listingBytes (lineDirectives ls), lineCommands ls⟩

end Sys2Proof.Machine
end

