-- ==== Sys2Proof/Machine/Reference.lean ====
section
/-! DEFINITION. The conversion as one function of the input bytes (R104), and the sample stream of a list of records
(R55, R69, R109). No step calls them: statements compare the steps with them. -/

namespace Sys2Proof.Machine

/-- The loop of R104 from offset `c` with the samples `s` so far. `fuel` bounds the passes; a pass that goes on
raises `c` by at least 3, so as many passes as there are bytes are enough (R105). -/
def scanFrom (bytes : List Byte) : Nat → Nat → List Byte → Except Err (List Byte)
  | 0, _, s => .ok s
  | fuel + 1, c, s =>
    if c + 3 < bytes.length then
      if isBlockId (bytes.getD c 0#8) then
        let l := (bytes.getD (c + 1) 0#8).toNat + 256 * (bytes.getD (c + 2) 0#8).toNat
        if c + 3 + l > bytes.length then .error .truncatedInput
        else
          scanFrom bytes fuel (c + 3 + l)
            (s ++ (blockSyncPulses ++ payloadPulses ((bytes.drop (c + 3)).take l)))
      else .ok s
    else .ok s

/-- The samples every conversion begins with (R93). -/
def preamble : List Byte := silence leadSilence ++ fileSyncPulses

/-- convert(IN) (R104). -/
def convert (bytes : List Byte) : Except Err (List Byte) :=
  match scanFrom bytes bytes.length leadInBytes preamble with
  | .error e => .error e
  | .ok s => wavContainer (s ++ silence tailSilence)

/-- The outcome (PHASE, ERR, OUT) that a conversion of these bytes ends with (R104, R156). -/
def convertOutcome (bytes : List Byte) : Phase × Err × List Byte :=
  match convert bytes with
  | .ok out => (.done, .none, out)
  | .error e => (.error, e, [])

/-- At most this many records can be consumed from an input of `n` bytes (R105). -/
def maxRecords (n : Nat) : Nat := (n - 4) / 3

/-- The samples of one accepted record (R69). -/
def recordSamples (r : Record) : List Byte := blockSyncPulses ++ payloadPulses r.payload

/-- The sample stream of the accepted records (R69). -/
def sampleStream (rs : List Record) : List Byte :=
  silence leadSilence ++ fileSyncPulses ++ rs.flatMap recordSamples ++ silence tailSilence

/-- Bytes at which the scan ends behind the records `rs`: a terminator with anything behind it, or too few bytes for the
loop guard. Where nothing is left the last record has a payload: the guard does not let a zero-length record at the very
end be reached (R94, R95, R107). -/
def EndsScan (rs : List Record) (rest : List Byte) : Prop :=
  (∃ t more, rest = t :: more ∧ isBlockId t = false) ∨
  (rest.length ≤ 3 ∧ (rest = [] → ∀ r, rs.getLast? = some r → r.payload ≠ []))

/-- The scan of these bytes accepts exactly the records `rs`: they stand one after another behind the lead-in, and the
scan ends behind them. An input that is shorter than the lead-in has none (R48, R55, R64, R108). -/
def Accepts (bytes : List Byte) (rs : List Record) : Prop :=
  (∀ r ∈ rs, r.wellFormed = true) ∧
  ((∃ lead rest : List Byte, lead.length = leadInBytes ∧ bytes = lead ++ rs.flatMap Record.bytes ++ rest ∧
      EndsScan rs rest) ∨
   (bytes.length < leadInBytes ∧ rs = []))

/-- The number of 1 bits of a byte (R13). -/
def popcount (b : Byte) : Nat := (bitOrder.filter fun i => b.getLsbD i).length

/-- The length of an encoded byte in closed form (R67). -/
def byteSamples (b : Byte) : Nat := 128 - 10 * popcount b

/-- dataLength in closed form (R109). -/
def dataLength (rs : List Record) : Nat :=
  48056 + 4842 * rs.length + ((rs.flatMap Record.payload).map byteSamples).sum

end Sys2Proof.Machine
end

