-- ==== Sys2Proof/Config.lean ====
section
/-! DEFINITION. What one installation of the block fixes and the spec leaves as a parameter. The constants of
the block itself, which no installation varies (R3 to R9, R30), stand in Machine/Params.lean. -/

namespace Sys2Proof

/-- How many instances an installation has beyond the first: no body, so that no proof knows the number
(R11, D22; log 16). -/
opaque Config.furtherInstances : Nat

/-- INSTANCES, which is at least 1 (R11). -/
def Config.instances : Nat := Config.furtherInstances + 1

end Sys2Proof
end

