-- ==== Sys2Proof/Machine/System.lean ====
section
/-! DEFINITION. The block and its host as one system, and several instances side by side (R11, R51, R144). -/

namespace Sys2Proof.Machine

/-- `k` steps of the block, the host making no move; it stops where a step does not answer a next state. -/
def steps : Nat → State → Host.Outcome State Fault Refusal
  | 0, s => .next s
  | k + 1, s =>
    match step s with
    | .next t => steps k t
    | .fault r => .fault r
    | .refused r => .refused r

/-- What can happen next: the block steps, or the host makes a move between two steps (R15, R51). -/
inductive Event where
  | blockStep
  | host (m : HostMove)
  deriving DecidableEq, Repr

/-- The state after an event; none where the host has no such move, or the block stops. -/
def event : Event → State → Option State
  | .blockStep, s =>
    match step s with
    | .next t => some t
    | .fault _ => none
    | .refused _ => none
  | .host m, s => hostMove m s

/-- A run of events, one after another (R51). -/
def events : List Event → State → Option State
  | [], s => some s
  | e :: es, s => (event e s).bind (events es)

/-! ### Runs without end, and fairness (R158, D21) -/

/-- Can the block take a step of its own: it is busy, or a command waits for acceptance. In IDLE, DONE and ERROR without
one it takes none (R35, R146). -/
def State.canStep (s : State) : Bool := s.phase.busy || s.issued

/-- One block's view of a run that need not end: what happens to it at each moment, and its states. At a moment without
an event nothing happens to this block: another instance has its turn, or nothing happens at all (R51, R144). -/
def IsRun (es : Nat → Option Event) (ss : Nat → State) : Prop :=
  ∀ k, match es k with
    | none => ss (k + 1) = ss k
    | some e => event e (ss k) = some (ss (k + 1))

/-- Fairness, the one assumption about time: a block that can take a step eventually takes it (R158, D21). A block that a
reset has meanwhile made unable to step need not; that reading of the rule is the model's (log 15). -/
def IsFair (es : Nat → Option Event) (ss : Nat → State) : Prop :=
  ∀ k, (ss k).canStep = true → ∃ j, k ≤ j ∧ (es j = some .blockStep ∨ (ss j).canStep = false)

/-- The instances, each with a whole state of its own (R144). -/
structure System where
  blocks : List State
  deriving DecidableEq, Repr

/-- All instances after reset (R11). -/
def System.reset : System := ⟨List.replicate Config.instances State.reset⟩

/-- An event of instance `k`. -/
def System.event (k : Nat) (e : Event) (y : System) : Option System :=
  match y.blocks[k]? with
  | none => none
  | some s => (Machine.event e s).map fun t => ⟨y.blocks.set k t⟩

/-- A run of the system: which instance does what, in one order (R144). -/
def System.events : List (Nat × Event) → System → Option System
  | [], y => some y
  | (k, e) :: es, y => (System.event k e y).bind (System.events es)

end Sys2Proof.Machine
end

