-- ==== Sys2Proof/Safety.lean ====
section
/-! DEFINITION. What holds in every safe run: the invariant of a block and its host, the order of the phases, and the
states a run can reach. -/

namespace Sys2Proof.Machine

/-- A result of one of the five encoder commands (R79 to R87). -/
def IsEncoded (out : List Byte) : Prop :=
  (∃ bit, out = bitPulses bit) ∨ (∃ b, out = bytePulses b) ∨ (∃ count, out = silence count) ∨
    out = fileSyncPulses ∨ out = blockSyncPulses

/-- A whole result, as the host may read it in DONE: that of an encoder command, one header alone, or the WAV container
of the sample stream of some records (R23, R69, R123, R125). -/
def IsResult (out : List Byte) : Prop :=
  IsEncoded out ∨
  (∃ count, count ≤ maxSamples ∧ out = wavHeaderBytes count) ∨
  (∃ rs : List Record, (∀ r ∈ rs, r.wellFormed = true) ∧ (sampleStream rs).length ≤ maxSamples ∧
    out = wavHeaderBytes (sampleStream rs).length ++ sampleStream rs)

/-- What every state of a run satisfies. -/
structure State.Inv (s : State) : Prop where
  /-- IN has its canonical form (log 5). -/
  inputCanonical : Memory.wf s.input
  /-- No byte of IN lies beyond N (R22, R41). -/
  inputWithinN : ∀ c ∈ s.input, c.1 < s.n
  /-- A command waits only where the host may issue one (R153). -/
  issuedQuiescent : s.issued = true → s.phase.quiescent = true
  /-- ERR names an error exactly in ERROR (R26, R27, R131). -/
  errExactlyInError : s.err ≠ .none ↔ s.phase = .error
  /-- OUT is empty before the first sample and after an error (R37, R92, R131). -/
  outEmpty : s.phase = .idle ∨ s.phase = .leadIn ∨ s.phase = .error → s.out = []
  /-- A conversion's OUT holds sample levels only (R32). -/
  outLevels : s.phase = .scan ∨ s.phase = .tail ∨ s.phase = .final → ∀ b ∈ s.out, isLevel b = true
  /-- While the scan runs and when it has ended, OUT holds the leading silence, the file sync and the samples of whole
  records (R69, R93, R98, R99). -/
  outStream : s.phase = .scan ∨ s.phase = .tail →
    ∃ rs : List Record, (∀ r ∈ rs, r.wellFormed = true) ∧ s.out = preamble ++ rs.flatMap recordSamples
  /-- FINAL finds a whole sample stream (R69, R101). -/
  outComplete : s.phase = .final → ∃ rs : List Record, (∀ r ∈ rs, r.wellFormed = true) ∧ s.out = sampleStream rs
  /-- CUR has been written when the scan reads it, and lies behind the lead-in (R24, R93). -/
  curWritten : s.phase = .scan → s.cur.held = true ∧ leadInBytes ≤ s.cur.value
  /-- DONE holds a whole result (R23, R47). -/
  doneResult : s.phase = .done → IsResult s.out

/-- One step of a conversion moves PHASE forward or to ERROR (R35). -/
def ConversionMove : Phase → Phase → Prop
  | .init, q => q = .leadIn
  | .leadIn, q => q = .scan
  | .scan, q => q = .scan ∨ q = .tail ∨ q = .error
  | .tail, q => q = .final
  | .final, q => q = .done ∨ q = .error
  | .idle, _ => False
  | .done, _ => False
  | .error, _ => False

/-- The states that events lead to from reset (R147, R151). -/
inductive Reachable : State → Prop where
  | reset : Reachable State.reset
  | event {s t : State} (e : Event) : Reachable s → Machine.event e s = some t → Reachable t

end Sys2Proof.Machine
end

