-- ==== Sys2Proof/Certificates/Slice0/Obligations.lean ====
section
/-! DEFINITION. The statements for the provers, from the numbered rules of spec/. -/

open Sys2Proof Sys2Proof.Machine

/-! ### Reset -/

/-- R37. -/
def Obligations.ResetLeavesBlockIdleAndEmpty : Prop :=
  State.reset.phase = .idle ∧ State.reset.err = .none ∧ State.reset.out = [] ∧
    State.reset.cur.contents = none ∧ State.reset.id.contents = none ∧ State.reset.len.contents = none

/-- R147: a reset in any phase. That a waiting command is dropped is the model's own field `issued` (log 1). -/
def Obligations.ResetInAnyPhaseDiscardsTheCommand : Prop :=
  ∀ s : State, ∃ t, hostMove .reset s = some t ∧ t.phase = .idle ∧ t.err = .none ∧ t.out = [] ∧
    t.cur.contents = none ∧ t.id.contents = none ∧ t.len.contents = none ∧ t.issued = false ∧ t.readOut = none

/-! ### The invariant -/

/-- The invariant holds after reset. -/
def Obligations.ResetSatisfiesTheInvariant : Prop := State.reset.Inv

/-- R32, R35, R41, R47, R49, R123: the invariant is kept by every step from every state that has it. -/
def Obligations.EveryStepKeepsTheInvariant : Prop :=
  ∀ s t : State, s.Inv → step s = .next t → t.Inv

/-- R152: the invariant is kept by every move a host has. -/
def Obligations.EveryHostMoveKeepsTheInvariant : Prop :=
  ∀ (m : HostMove) (s t : State), s.Inv → hostMove m s = some t → t.Inv

/-- R23, R32, R47: what the host reads in a state that events lead to from reset is the whole result of a command: an
encoder's pulses, one header, or the container of a whole sample stream; and but for a header in front, if there is one,
it holds sample levels only. -/
def Obligations.EveryResultReadIsWhole : Prop :=
  ∀ (s : State) (out : List Byte), Reachable s → s.readOut = some out →
    IsResult out ∧
    ((∀ b ∈ out, isLevel b = true) ∨
     (∃ samples : List Byte, (∀ b ∈ samples, isLevel b = true) ∧ out = wavHeaderBytes samples.length ++ samples) ∨
     (∃ count, count ≤ 4294967259 ∧ out = wavHeaderBytes count))

/-- R41, R64, R90: from every state whatever, the step function answers a next state: no step reads past IN and none is
refused. A waiting block takes no step (R35, R146); that the function answers its own state there is the model's choice
(log 2). -/
def Obligations.EveryStepCompletes : Prop := ∀ s : State, ∃ t, step s = .next t

/-! ### Encodings -/

/-- R56, R57, R59, R71: decoding what the encoder writes gives the instruction back. -/
def Obligations.DecodingAnEncodingGivesTheInstruction : Prop :=
  ∀ i : Instr, i.wellFormed = true → decode (encode i) = .ok i

/-- R59, R71, R73: what decodes is spelled in one way, up to the bytes after a record's header. -/
def Obligations.WhatDecodesIsSpelledOneWay : Prop :=
  ∀ i : Instr,
    (∀ c, decode (.command c) = .ok i → i.wellFormed = true ∧ encode i = .command c) ∧
    (∀ bytes, decode (.stream bytes) = .ok i →
      i.wellFormed = true ∧ ∃ header rest, encode i = .stream header ∧ bytes = header ++ rest)

/-- R56, R57, R59, R71: words written out from the spec's tables. -/
def Obligations.WrittenWordsDecode : Prop :=
  decode (.stream [0x55#8, 0x00#8, 0x01#8]) = .ok (.block55 256#16) ∧
  decode (.stream [0xAA#8, 0x02#8, 0x00#8, 0xD3#8, 0xFF#8]) = .ok (.blockAA 2#16) ∧
  decode (.stream [0x99#8]) = .ok (.terminator 0x99#8) ∧
  decode (.command ⟨0x02#8, 0xD3⟩) = .ok (.encodeByte 211) ∧
  decode (.command ⟨0x06#8, 48056⟩) = .ok (.wavHeader 48056) ∧
  decode (.command ⟨0x07#8, 0⟩) = .ok (.convert 0) ∧
  decode (.command ⟨0x08#8, 0⟩) = .error (.unassignedOp 0x08#8)

/-- R75: the directives write the bytes of a record. -/
def Obligations.BlockDirectiveWritesTheRecord : Prop :=
  (∀ (id : Byte) (payload : List Byte),
    listingBytes [.block id payload] =
      [id, BitVec.ofNat 8 (payload.length % 256), BitVec.ofNat 8 (payload.length / 256)] ++ payload) ∧
  (∀ (id : Byte) (l : Length),
    listingBytes [.blockhdr id l] = [id, BitVec.ofNat 8 (l.toNat % 256), BitVec.ofNat 8 (l.toNat / 256)]) ∧
  (∀ b0 b1 b2 : Byte, listingBytes [.lead b0 b1 b2] = [b0, b1, b2]) ∧
  wordsLine ["lead".toList] = some (.directive (.lead 0#8 0#8 0#8)) ∧
  (∀ bytes : List Byte, listingBytes [.db bytes] = bytes)

/-! ### A step runs the decoded instruction -/

/-- R153: an issued command is run in IDLE, DONE and ERROR, and is then no longer waiting. -/
def Obligations.AcceptanceRunsTheDecodedCommand : Prop :=
  ∀ (s : State) (i : Instr), s.phase.quiescent = true → s.issued = true → decodeCommand s.cmd = .ok i →
    step s = exec i { s with issued := false }

/-- R94, R95: where the loop guard holds, the SCAN step runs what the bytes from CUR on decode to. -/
def Obligations.ScanRunsTheDecodedRecord : Prop :=
  ∀ (s : State) (i : Instr), s.phase = .scan → s.cur.value + 3 < s.n →
    decodeRecord (s.inBytes.drop s.cur.value) = .ok i → step s = exec i s

/-- R72, R130, R131. That the waiting command is taken is the model's own field `issued` (log 1). -/
def Obligations.UnassignedCommandRaisesUnknownCommand : Prop :=
  ∀ s : State, s.phase.quiescent = true → s.issued = true → (s.cmd.op = 0x00#8 ∨ 0x08#8 ≤ s.cmd.op) →
    step s = .next { s with issued := false, out := [], err := .unknownCommand, phase := .error }

/-- R146: with no command issued, the block waits and every piece of state survives (that the wait is a step is the
model's choice, log 2). -/
def Obligations.IdleBlockKeepsItsState : Prop :=
  ∀ s : State, s.phase.quiescent = true → s.issued = false → step s = .next s

/-! ### The encoder commands -/

/-- R79. -/
def Obligations.EncodeBitGivesOnePulsePair : Prop :=
  ∀ (arg : Nat) (s : State),
    decodeCommand ⟨0x01#8, arg⟩ = .ok (.encodeBit arg) ∧
    (arg = 0 → exec (.encodeBit arg) s = .next { s with
      out := List.replicate 8 248#8 ++ List.replicate 8 8#8, err := .none, phase := .done }) ∧
    (arg = 1 → exec (.encodeBit arg) s = .next { s with
      out := List.replicate 3 248#8 ++ List.replicate 3 8#8, err := .none, phase := .done }) ∧
    (1 < arg → exec (.encodeBit arg) s = .next { s with out := [], err := .invalidOperand, phase := .error })

/-- R81, R127: the pulse pairs of bits 7 to 0 of the operand. -/
def Obligations.EncodeByteGivesEightPulsePairs : Prop :=
  ∀ (arg : Nat) (s : State),
    decodeCommand ⟨0x02#8, arg⟩ = .ok (.encodeByte arg) ∧
    (arg ≤ 255 → exec (.encodeByte arg) s = .next { s with
      out := [7, 6, 5, 4, 3, 2, 1, 0].flatMap (fun i =>
        if arg.testBit i then [248#8, 248#8, 248#8, 8#8, 8#8, 8#8]
        else List.replicate 8 248#8 ++ List.replicate 8 8#8),
      err := .none, phase := .done }) ∧
    (255 < arg → exec (.encodeByte arg) s = .next { s with out := [], err := .invalidByte, phase := .error })

/-- R83. -/
def Obligations.EncodeSilenceGivesTheCount : Prop :=
  ∀ (arg : Nat) (s : State),
    decodeCommand ⟨0x03#8, arg⟩ = .ok (.encodeSilence arg) ∧
    exec (.encodeSilence arg) s = .next { s with out := List.replicate arg 128#8, err := .none, phase := .done }

/-- R84, R85: whatever the operand. -/
def Obligations.FileSyncGivesThePreamble : Prop :=
  ∀ (arg : Nat) (s : State),
    decodeCommand ⟨0x04#8, arg⟩ = .ok (.fileSync arg) ∧
    exec (.fileSync arg) s = .next { s with
      out := (List.replicate 512 (bytePulses 0xAA#8)).flatten, err := .none, phase := .done } ∧
    (List.replicate 512 (bytePulses 0xAA#8)).flatten.length = 45056

/-- R86, R87: whatever the operand. -/
def Obligations.BlockSyncGivesTheMarker : Prop :=
  ∀ (arg : Nat) (s : State),
    decodeCommand ⟨0x05#8, arg⟩ = .ok (.blockSync arg) ∧
    exec (.blockSync arg) s = .next { s with
      out := (List.replicate 96 (bytePulses 0xFF#8)).flatten ++ (List.replicate 3 (bytePulses 0xD3#8)).flatten,
      err := .none, phase := .done } ∧
    ((List.replicate 96 (bytePulses 0xFF#8)).flatten ++ (List.replicate 3 (bytePulses 0xD3#8)).flatten).length = 4842

/-- R67: the pulse pairs of bits 7 to 0, their length as the sum over the bits and in closed form, and its range. -/
def Obligations.EncodedByteHasItsLength : Prop :=
  ∀ b : Byte,
    bytePulses b = bitPulses (b.getLsbD 7) ++ bitPulses (b.getLsbD 6) ++ bitPulses (b.getLsbD 5) ++
      bitPulses (b.getLsbD 4) ++ bitPulses (b.getLsbD 3) ++ bitPulses (b.getLsbD 2) ++ bitPulses (b.getLsbD 1) ++
      bitPulses (b.getLsbD 0) ∧
    48 ≤ (bytePulses b).length ∧ (bytePulses b).length ≤ 128 ∧
    (bytePulses b).length = ([7, 6, 5, 4, 3, 2, 1, 0].map fun i => if b.getLsbD i then 6 else 16).sum ∧
    (bytePulses b).length = 128 - 10 * popcount b

/-- R68: the bits, and so the bytes, of a run of pulse pairs can be told from the samples alone. -/
def Obligations.PulsesTellTheirBitsApart : Prop :=
  (∀ xs ys : List Bool, xs.flatMap bitPulses = ys.flatMap bitPulses → xs = ys) ∧
  (∀ xs ys : List Byte, payloadPulses xs = payloadPulses ys → xs = ys)

/-! ### The WAV header -/

/-- R125: the 44 bytes written out. -/
def Obligations.WavHeaderGivesItsBytes : Prop :=
  ∀ (arg : Nat) (s : State),
    decodeCommand ⟨0x06#8, arg⟩ = .ok (.wavHeader arg) ∧
    (arg ≤ 4294967259 → exec (.wavHeader arg) s = .next { s with
      out := [0x52#8, 0x49#8, 0x46#8, 0x46#8,
        BitVec.ofNat 8 (36 + arg), BitVec.ofNat 8 ((36 + arg) / 256), BitVec.ofNat 8 ((36 + arg) / 65536),
        BitVec.ofNat 8 ((36 + arg) / 16777216),
        0x57#8, 0x41#8, 0x56#8, 0x45#8, 0x66#8, 0x6D#8, 0x74#8, 0x20#8, 0x10#8, 0x00#8, 0x00#8, 0x00#8,
        0x01#8, 0x00#8, 0x01#8, 0x00#8, 0x40#8, 0x1F#8, 0x00#8, 0x00#8, 0x40#8, 0x1F#8, 0x00#8, 0x00#8,
        0x01#8, 0x00#8, 0x08#8, 0x00#8, 0x64#8, 0x61#8, 0x74#8, 0x61#8,
        BitVec.ofNat 8 arg, BitVec.ofNat 8 (arg / 256), BitVec.ofNat 8 (arg / 65536),
        BitVec.ofNat 8 (arg / 16777216)],
      err := .none, phase := .done }) ∧
    (4294967259 < arg → exec (.wavHeader arg) s = .next { s with out := [], err := .sizeOverflow, phase := .error })

/-- R110, R112, R123: 44 bytes, and the two sizes it declares are read back exactly. -/
def Obligations.HeaderDeclaresItsSizes : Prop :=
  ∀ count : Nat, count ≤ 4294967259 →
    (wavHeaderBytes count).length = 44 ∧
    fromLe (((wavHeaderBytes count).drop 40).take 4) = count ∧
    fromLe (((wavHeaderBytes count).drop 4).take 4) = 36 + count

/-! ### The steps of a conversion -/

/-- R91, R153: acceptance, seen as an instruction and as a step. -/
def Obligations.ConvertStartsAConversion : Prop :=
  ∀ (arg : Nat) (s : State),
    decodeCommand ⟨0x07#8, arg⟩ = .ok (.convert arg) ∧
    exec (.convert arg) s = .next { s with err := .none, phase := .init } ∧
    (s.phase.quiescent = true → s.issued = true → s.cmd = ⟨0x07#8, arg⟩ →
      step s = .next { s with issued := false, err := .none, phase := .init })

/-- R92. -/
def Obligations.InitStepEmptiesTheBuffer : Prop :=
  ∀ s : State, s.phase = .init → step s = .next { s with out := [], phase := .leadIn }

/-- R93. -/
def Obligations.LeadInStepEmitsThePreamble : Prop :=
  ∀ s : State, s.phase = .leadIn →
    (step s = .next { s with
      out := s.out ++ List.replicate 2000 128#8 ++ (List.replicate 512 (bytePulses 0xAA#8)).flatten,
      cur := ⟨3, true⟩, phase := .scan }) ∧
    (s.out = [] → ∀ t, step s = .next t → t.out.length = 47056)

/-- R94. -/
def Obligations.ScanEndsWhereTheGuardFails : Prop :=
  ∀ s : State, s.phase = .scan → ¬ s.cur.value + 3 < s.n → step s = .next { s with phase := .tail }

/-- R95, R133: the instruction on any state, and the SCAN step that reaches it. -/
def Obligations.TerminatorEndsTheScan : Prop :=
  (∀ (id : Byte) (s : State),
    exec (.terminator id) s = .next { s with id := ⟨id, true⟩, phase := .tail }) ∧
  (∀ (s : State) (id : Byte), s.phase = .scan → s.cur.value + 3 < s.n → s.byteAt s.cur.value = some id →
    id ≠ 0x55#8 → id ≠ 0xAA#8 → step s = .next { s with id := ⟨id, true⟩, phase := .tail })

/-- R97 to R100: what the two record instructions do where the payload lies within IN; their whole effect. -/
def Obligations.BlockRecordsEmitTheirPayload : Prop :=
  ∀ (len : Length) (s : State), s.cur.value + 3 + len.toNat ≤ s.n →
    (exec (.block55 len) s = .next { s with
      id := ⟨0x55#8, true⟩, len := ⟨len, true⟩, cur := ⟨s.cur.value + 3 + len.toNat, true⟩,
      out := s.out ++ (blockSyncPulses ++ (List.range len.toNat).flatMap fun k =>
        bytePulses (Memory.read s.input (s.cur.value + 3 + k))) }) ∧
    (exec (.blockAA len) s = .next { s with
      id := ⟨0xAA#8, true⟩, len := ⟨len, true⟩, cur := ⟨s.cur.value + 3 + len.toNat, true⟩,
      out := s.out ++ (blockSyncPulses ++ (List.range len.toNat).flatMap fun k =>
        bytePulses (Memory.read s.input (s.cur.value + 3 + k))) })

/-- R97, R131: what the two record instructions do where the declared payload runs past IN. -/
def Obligations.BlockRecordsAbortWhenTruncated : Prop :=
  ∀ (len : Length) (s : State), s.n < s.cur.value + 3 + len.toNat →
    (exec (.block55 len) s = .next { s with
      id := ⟨0x55#8, true⟩, len := ⟨len, true⟩, out := [], err := .truncatedInput, phase := .error }) ∧
    (exec (.blockAA len) s = .next { s with
      id := ⟨0xAA#8, true⟩, len := ⟨len, true⟩, out := [], err := .truncatedInput, phase := .error })

/-- R95 to R100: the SCAN step on a complete data record, its length read from IN. -/
def Obligations.ScanConsumesACompleteRecord : Prop :=
  ∀ (s : State) (id lo hi : Byte) (L : Nat), s.phase = .scan → s.cur.value + 3 < s.n →
    s.byteAt s.cur.value = some id → (id = 0x55#8 ∨ id = 0xAA#8) →
    s.byteAt (s.cur.value + 1) = some lo → s.byteAt (s.cur.value + 2) = some hi →
    L = lo.toNat + 256 * hi.toNat → s.cur.value + 3 + L ≤ s.n →
    step s = .next { s with
      id := ⟨id, true⟩, len := ⟨BitVec.ofNat 16 L, true⟩, cur := ⟨s.cur.value + 3 + L, true⟩,
      out := s.out ++ (blockSyncPulses ++ (List.range L).flatMap fun k =>
        bytePulses (Memory.read s.input (s.cur.value + 3 + k))) }

/-- R97, R128, R131: the SCAN step on a data record whose payload is cut. -/
def Obligations.ScanAbortsOnATruncatedRecord : Prop :=
  ∀ (s : State) (id lo hi : Byte) (L : Nat), s.phase = .scan → s.cur.value + 3 < s.n →
    s.byteAt s.cur.value = some id → (id = 0x55#8 ∨ id = 0xAA#8) →
    s.byteAt (s.cur.value + 1) = some lo → s.byteAt (s.cur.value + 2) = some hi →
    L = lo.toNat + 256 * hi.toNat → s.n < s.cur.value + 3 + L →
    step s = .next { s with
      id := ⟨id, true⟩, len := ⟨BitVec.ofNat 16 L, true⟩, out := [], err := .truncatedInput, phase := .error }

/-- R60: but for the latched id, the two records leave the same state. -/
def Obligations.BothBlockIdsAreTreatedAlike : Prop :=
  ∀ (len : Length) (s t u : State), exec (.block55 len) s = .next t → exec (.blockAA len) s = .next u →
    { t with id := u.id } = u

/-- R101. -/
def Obligations.TailStepEmitsSilence : Prop :=
  ∀ s : State, s.phase = .tail → step s = .next { s with out := s.out ++ List.replicate 1000 128#8, phase := .final }

/-- R102, R129. -/
def Obligations.FinalStepComposesTheContainer : Prop :=
  ∀ s : State, s.phase = .final →
    (s.out.length ≤ 4294967259 →
      step s = .next { s with out := wavHeaderBytes s.out.length ++ s.out, phase := .done }) ∧
    (4294967259 < s.out.length → step s = .next { s with out := [], err := .sizeOverflow, phase := .error })

/-! ### Whole conversions -/

/-- R104, R105: from acceptance on, at most B + 6 steps (one each of acceptance, INIT, LEADIN, TAIL and FINAL, and
B + 1 of SCAN) end in the outcome of the reference function. The model's choices in the count: it begins at an issued
command, whose acceptance is a step (log 1), and a conversion that ends earlier waits for the steps that are left
(log 2). -/
def Obligations.ConversionComputesTheReference : Prop :=
  ∀ s : State, s.phase.quiescent = true → s.issued = true → s.cmd.op = 0x07#8 →
    ∃ t, steps (maxRecords s.n + 6) s = .next t ∧ t.outcome = convertOutcome s.inBytes

/-- R105, R156, R158: no state makes the converter hang, and in a run that is fair (log 15) a block that is busy or has a
command waiting comes to DONE or ERROR with no command waiting, unless a reset ends the command. -/
def Obligations.EveryConversionEnds : Prop :=
  (∀ s : State, s.phase.busy = true →
    ∃ k t, k ≤ s.n + 5 ∧ steps k s = .next t ∧ (t.phase = .done ∨ t.phase = .error)) ∧
  (∀ (es : Nat → Option Event) (ss : Nat → State), IsRun es ss → IsFair es ss →
    ∀ k, (ss k).canStep = true → (∀ j, k ≤ j → es j ≠ some (.host .reset)) →
      ∃ j, k < j ∧ ((ss j).phase = .done ∨ (ss j).phase = .error) ∧ (ss j).issued = false)

/-- R2, R104: a conversion ends in DONE or ERROR with the outcome that the reference function gives the input bytes,
whatever else the two blocks held before it. That acceptance is a step, and that the block which ends first waits for the
other, are the model's choices (log 1, log 2). -/
def Obligations.OutcomeDependsOnTheInputOnly : Prop :=
  ∀ s u : State, s.phase.quiescent = true → u.phase.quiescent = true → s.issued = true → u.issued = true →
    s.cmd.op = 0x07#8 → u.cmd.op = 0x07#8 → s.inBytes = u.inBytes →
    ∃ k t v, 1 ≤ k ∧ steps k s = .next t ∧ steps k u = .next v ∧ t.issued = false ∧ v.issued = false ∧
      t.outcome = convertOutcome s.inBytes ∧ v.outcome = convertOutcome s.inBytes

/-- R55, R69: a lead-in, any records, a terminator and anything after it. -/
def Obligations.RecordsBecomeTheSampleStream : Prop :=
  ∀ (b0 b1 b2 t : Byte) (rs : List Record) (rest : List Byte),
    (∀ r ∈ rs, r.wellFormed = true) → isBlockId t = false →
    convert ([b0, b1, b2] ++ rs.flatMap Record.bytes ++ t :: rest) =
      if (sampleStream rs).length ≤ 4294967259
      then .ok (wavHeaderBytes (sampleStream rs).length ++ sampleStream rs) else .error .sizeOverflow

/-- R69: every successful conversion has the stream grammar. -/
def Obligations.EverySuccessHasTheGrammar : Prop :=
  ∀ bytes out : List Byte, convert bytes = .ok out →
    ∃ rs : List Record, (∀ r ∈ rs, r.wellFormed = true) ∧
      out = wavHeaderBytes (sampleStream rs).length ++ sampleStream rs

/-- R40, R42, R49: the output map of a successful conversion. -/
def Obligations.OutputMapHasItsOffsets : Prop :=
  ∀ bytes out : List Byte, convert bytes = .ok out →
    out.take 44 = wavHeaderBytes (out.length - 44) ∧
    (out.drop 44).take 2000 = List.replicate 2000 128#8 ∧
    (out.drop 2044).take 45056 = (List.replicate 512 (bytePulses 0xAA#8)).flatten ∧
    out.drop (out.length - 1000) = List.replicate 1000 128#8 ∧
    ∃ rs : List Record, (∀ r ∈ rs, r.wellFormed = true) ∧
      out.drop 47100 = (rs.flatMap fun r => blockSyncPulses ++ payloadPulses r.payload) ++ List.replicate 1000 128#8

/-- R109: every successful conversion accepts some records, and has the number of samples, and of output bytes, that
the records it accepts give: whether a terminator ends the scan or the loop guard, and whatever bytes are left. -/
def Obligations.SampleCountHasItsClosedForm : Prop :=
  ∀ bytes out : List Byte, convert bytes = .ok out →
    (∃ rs, Accepts bytes rs) ∧
    ∀ rs, Accepts bytes rs →
      (out.drop 44).length =
        48056 + 4842 * rs.length + ((rs.flatMap Record.payload).map fun p => 128 - 10 * popcount p).sum ∧
      out.length =
        44 + (48056 + 4842 * rs.length + ((rs.flatMap Record.payload).map fun p => 128 - 10 * popcount p).sum)

/-- R106: nothing after the terminator counts, and cutting the input before it changes nothing unless the record
before it has length 0. -/
def Obligations.NothingAfterATerminatorCounts : Prop :=
  ∀ (b0 b1 b2 t : Byte) (rs : List Record) (rest rest' : List Byte),
    (∀ r ∈ rs, r.wellFormed = true) → isBlockId t = false →
    convert ([b0, b1, b2] ++ rs.flatMap Record.bytes ++ t :: rest) =
      convert ([b0, b1, b2] ++ rs.flatMap Record.bytes ++ t :: rest') ∧
    ((∀ r, rs.getLast? = some r → r.payload ≠ []) →
      convert ([b0, b1, b2] ++ rs.flatMap Record.bytes ++ t :: rest) =
        convert ([b0, b1, b2] ++ rs.flatMap Record.bytes))

/-- R107: one to three bytes behind the last record are not read, whatever they hold, a complete zero-length record
among them. -/
def Obligations.TrailingBytesAreIgnored : Prop :=
  ∀ (b0 b1 b2 : Byte) (rs : List Record) (trailing : List Byte),
    (∀ r ∈ rs, r.wellFormed = true) → 1 ≤ trailing.length → trailing.length ≤ 3 →
    convert ([b0, b1, b2] ++ rs.flatMap Record.bytes ++ trailing) = wavContainer (sampleStream rs)

/-- R97, R128: a reached record that declares more than there is aborts the conversion. -/
def Obligations.TruncatedInputGivesNoResult : Prop :=
  ∀ (b0 b1 b2 id : Byte) (rs : List Record) (l : Length) (part : List Byte),
    (∀ r ∈ rs, r.wellFormed = true) → isBlockId id = true → 1 ≤ part.length → part.length < l.toNat →
    convertOutcome ([b0, b1, b2] ++ rs.flatMap Record.bytes ++ recordHeader id l ++ part) =
      (.error, .truncatedInput, [])

/-- R108. -/
def Obligations.ShortInputsGiveTheEmptyStream : Prop :=
  ∀ bytes : List Byte, bytes.length ≤ 6 →
    convert bytes = .ok (wavHeaderBytes 48056 ++ (List.replicate 2000 128#8 ++
      (List.replicate 512 (bytePulses 0xAA#8)).flatten ++ List.replicate 1000 128#8)) ∧
    ∀ out, convert bytes = .ok out → out.length = 48100

/-- R48: the lead-in bytes have no effect. -/
def Obligations.LeadInBytesAreIgnored : Prop :=
  ∀ (a0 a1 a2 b0 b1 b2 : Byte) (rest : List Byte), convert (a0 :: a1 :: a2 :: rest) = convert (b0 :: b1 :: b2 :: rest)

/-! ### Rules about every step -/

/-- R35: PHASE moves forward or to ERROR, an accepted command ends at once or starts a conversion, and without one the
block stays. -/
def Obligations.PhaseOnlyMovesForward : Prop :=
  ∀ s t : State, step s = .next t →
    (s.phase.busy = true → ConversionMove s.phase t.phase) ∧
    (s.phase.quiescent = true → s.issued = true → t.phase = .init ∨ t.phase = .done ∨ t.phase = .error) ∧
    (s.phase.quiescent = true → s.issued = false → t = s)

/-- R36: an accepted command writes OUT, PHASE and ERR alone. -/
def Obligations.CommandsLeaveTheRestUnchanged : Prop :=
  ∀ (s t : State) (i : Instr), i.isRecord = false → exec i s = .next t →
    t.input = s.input ∧ t.n = s.n ∧ t.cur = s.cur ∧ t.id = s.id ∧ t.len = s.len ∧ t.cmd = s.cmd ∧
      t.issued = s.issued ∧ t.inputLoaded = s.inputLoaded ∧
      (t.err = .none ↔ t.phase ≠ .error) ∧ (t.phase = .error → t.out = [])

/-- R21, R36, R53: no step writes IN, N or CMD. -/
def Obligations.NoStepWritesWhatIsTheHosts : Prop :=
  ∀ s t : State, step s = .next t → t.input = s.input ∧ t.n = s.n ∧ t.cmd = s.cmd ∧ t.inputLoaded = s.inputLoaded

/-- R24, R25, R36: who writes CUR, and what; ID and LEN are written by the SCAN step only. -/
def Obligations.LatchesAreWrittenByLeadInAndScanOnly : Prop :=
  ∀ s t : State, step s = .next t →
    (s.phase = .leadIn → t.cur = ⟨3, true⟩) ∧
    (s.phase = .scan → t.phase = .scan → t.cur = ⟨s.cur.value + (t.len.value.toNat + 3), true⟩) ∧
    (s.phase = .scan → t.phase ≠ .scan → t.cur = s.cur) ∧
    (s.phase ≠ .leadIn → s.phase ≠ .scan → t.cur = s.cur) ∧
    (s.phase ≠ .scan → t.id = s.id ∧ t.len = s.len)

/-- R43: within a conversion OUT grows at its end, but where FINAL puts the header in front of it, INIT empties it or
an error discards it. -/
def Obligations.BufferGrowsAtItsEnd : Prop :=
  ∀ s t : State, step s = .next t →
    (s.phase = .leadIn ∨ s.phase = .scan ∨ s.phase = .tail → t.phase ≠ .error → s.out <+: t.out) ∧
    (s.phase = .final → t.phase ≠ .error → t.out = wavHeaderBytes s.out.length ++ s.out) ∧
    (s.phase = .init → t.out = [])

/-- R126, R127, R128, R129, R130, R132, R135: each error has its cause, and its step leaves OUT empty (R131). -/
def Obligations.EveryErrorHasItsCause : Prop :=
  ∀ s t : State, step s = .next t → t.phase = .error → (s.phase.busy = true ∨ s.issued = true) →
    t.out = [] ∧
    ((s.phase = .scan ∧ t.err = .truncatedInput ∧ s.n < s.cur.value + 3 + t.len.value.toNat) ∨
     (s.phase = .final ∧ t.err = .sizeOverflow ∧ 4294967259 < s.out.length) ∨
     (s.phase.quiescent = true ∧
       ((s.cmd.op = 0x01#8 ∧ 1 < s.cmd.arg ∧ t.err = .invalidOperand) ∨
        (s.cmd.op = 0x02#8 ∧ 255 < s.cmd.arg ∧ t.err = .invalidByte) ∨
        (s.cmd.op = 0x06#8 ∧ 4294967259 < s.cmd.arg ∧ t.err = .sizeOverflow) ∨
        ((s.cmd.op = 0x00#8 ∨ 0x08#8 ≤ s.cmd.op) ∧ t.err = .unknownCommand))))

/-! ### The host's side -/

/-- R31: the fields of STATUS, a write to it, and the codes of R26 and R126. -/
def Obligations.StatusWordHoldsPhaseAndError : Prop :=
  (∀ (s : State) (v : Byte),
    s.status.extractLsb' 0 3 = s.phase.code ∧ s.status.extractLsb' 3 3 = s.err.code ∧
      s.status.extractLsb' 6 2 = 0#2 ∧ hostMove (.writeStatus v) s = some s) ∧
  [Phase.idle, .init, .leadIn, .scan, .tail, .final, .done, .error].map Phase.code =
      [0#3, 1#3, 2#3, 3#3, 4#3, 5#3, 6#3, 7#3] ∧
  [Err.none, .invalidByte, .truncatedInput, .sizeOverflow, .invalidOperand, .unknownCommand].map Err.code =
      [0#3, 1#3, 2#3, 3#3, 4#3, 5#3]

/-- R33, R154: OUT is read whole in DONE and not at all in another phase; in ERROR it is empty. That
this holds of a block in which a newly issued command still waits is the model's choice (log 22). -/
def Obligations.OutputIsReadInDoneOnly : Prop :=
  ∀ s : State, (s.phase = .done → s.readOut = some s.out) ∧ (s.phase ≠ .done → s.readOut = none) ∧
    (s.Inv → s.phase = .error → s.out = [])

/-- R53, R152, R153: while a conversion runs, a host move but a reset changes nothing. -/
def Obligations.BusyBlockIsLeftAlone : Prop :=
  ∀ (m : HostMove) (s t : State), s.phase.busy = true → m ≠ .reset → hostMove m s = some t → t = s

/-- R150, R153: when a command can be issued. That the model records the writing of IN is log 7. -/
def Obligations.CommandsAreIssuedWhenQuiescent : Prop :=
  ∀ (c : Command) (s : State),
    (s.phase.quiescent = true → (c.op = 0x07#8 → s.inputLoaded = true) →
      hostMove (.issue c) s = some { s with cmd := c, issued := true }) ∧
    (s.phase.busy = true → hostMove (.issue c) s = none) ∧
    (c.op = 0x07#8 → s.inputLoaded = false → hostMove (.issue c) s = none)

/-- R22, R53, R77, R150, R152: in IDLE, DONE and ERROR the host can load any bytes, they are what the block then reads,
and nothing else changes but the model's own record of the load (log 7); in a busy phase it cannot. -/
def Obligations.LoadedBytesAreRead : Prop :=
  ∀ (bytes : List Byte) (s : State),
    (s.phase.quiescent = true → ∃ t, hostMove (.loadInput bytes) s = some t ∧
      t.inBytes = bytes ∧ t.n = bytes.length ∧ (∀ a, t.byteAt a = bytes[a]?) ∧
      t.out = s.out ∧ t.phase = s.phase ∧ t.err = s.err ∧ t.cur = s.cur ∧ t.id = s.id ∧ t.len = s.len ∧
      t.cmd = s.cmd ∧ t.issued = s.issued ∧ t.inputLoaded = true) ∧
    (s.phase.busy = true → hostMove (.loadInput bytes) s = none)

/-- R11, R144: whatever the instances do side by side, each ends where its own events alone lead. -/
def Obligations.InstancesShareNothing : Prop :=
  ∀ (es : List (Nat × Event)) (y z : System) (k : Nat) (s : State),
    System.events es y = some z → y.blocks[k]? = some s →
    z.blocks[k]? = events ((es.filter fun e => e.1 == k).map Prod.snd) s
end

