-- ==== Sys2Proof/Laws/Decode.lean ====
section
/-! SUPPORT. The decoder and the encoder's tables. -/

namespace Sys2Proof

theorem isBlockId_iff {id : Byte} : isBlockId id = true ↔ id = 0x55#8 ∨ id = 0xAA#8 := by simp [isBlockId]

theorem isBlockId_eq_false {id : Byte} : isBlockId id = false ↔ id ≠ 0x55#8 ∧ id ≠ 0xAA#8 := by simp [isBlockId]

/-- The assembled length is len_lo + 256 * len_hi, without wrapping (R57). -/
theorem assembleLength_toNat (lo hi : Byte) : (assembleLength lo hi).toNat = lo.toNat + 256 * hi.toNat := by
  simp only [assembleLength, BitVec.toNat_add, BitVec.toNat_setWidth, BitVec.toNat_mul]
  have := lo.isLt
  have := hi.isLt
  simp only [show BitVec.toNat 256#16 = 256 from rfl]
  omega

theorem header_lo_toNat (len : Length) : (len.extractLsb' 0 8).toNat = len.toNat % 256 := by
  simp [BitVec.extractLsb'_toNat]

theorem header_hi_toNat (len : Length) : (len.extractLsb' 8 8).toNat = len.toNat / 256 := by
  have := len.isLt
  simp only [BitVec.extractLsb'_toNat, Nat.shiftRight_eq_div_pow]
  omega

/-- Assembling the two bytes a length was cut into gives the length back (R57). -/
theorem assembleLength_extract (len : Length) :
    assembleLength (len.extractLsb' 0 8) (len.extractLsb' 8 8) = len := by
  apply BitVec.eq_of_toNat_eq
  rw [assembleLength_toNat, header_lo_toNat, header_hi_toNat]
  omega

/-- Cutting an assembled length gives its two bytes back. -/
theorem extract_assembleLength (lo hi : Byte) :
    (assembleLength lo hi).extractLsb' 0 8 = lo ∧ (assembleLength lo hi).extractLsb' 8 8 = hi := by
  have := lo.isLt
  have := hi.isLt
  constructor <;> apply BitVec.eq_of_toNat_eq
  · rw [header_lo_toNat, assembleLength_toNat]; omega
  · rw [header_hi_toNat, assembleLength_toNat]; omega

theorem decodeRecord_block {id lo hi : Byte} (h : isBlockId id = true) (rest : List Byte) :
    decodeRecord (id :: lo :: hi :: rest) =
      .ok (if id = 0x55#8 then .block55 (assembleLength lo hi) else .blockAA (assembleLength lo hi)) := by
  simp only [decodeRecord, h, if_true]
  split <;> rfl

theorem decodeRecord_terminator {id : Byte} (h : isBlockId id = false) (rest : List Byte) :
    decodeRecord (id :: rest) = .ok (.terminator id) := by
  simp [decodeRecord, h]

/-- What a list of bytes decodes to, if it decodes. -/
theorem decodeRecord_cases {bytes : List Byte} {i : Instr} (h : decodeRecord bytes = .ok i) :
    (∃ lo hi rest, bytes = 0x55#8 :: lo :: hi :: rest ∧ i = .block55 (assembleLength lo hi)) ∨
    (∃ lo hi rest, bytes = 0xAA#8 :: lo :: hi :: rest ∧ i = .blockAA (assembleLength lo hi)) ∨
    (∃ id rest, bytes = id :: rest ∧ isBlockId id = false ∧ i = .terminator id) := by
  match bytes with
  | [] => simp [decodeRecord] at h
  | id :: rest =>
    rcases hb : isBlockId id with _ | _
    · rw [decodeRecord_terminator hb] at h
      exact .inr (.inr ⟨id, rest, rfl, hb, by simpa using h.symm⟩)
    · match rest with
      | [] => simp [decodeRecord, hb] at h
      | [_] => simp [decodeRecord, hb] at h
      | lo :: hi :: rest =>
        rw [decodeRecord_block hb] at h
        rcases isBlockId_iff.1 hb with rfl | rfl
        · exact .inl ⟨lo, hi, rest, rfl, by simpa using h.symm⟩
        · exact .inr (.inl ⟨lo, hi, rest, rfl, by simpa using h.symm⟩)

/-- Which command a code is, or that it is none (R71, R72). -/
theorem decodeCommand_cases (c : Command) :
    (c.op = 0x01#8 ∧ decodeCommand c = .ok (.encodeBit c.arg)) ∨
    (c.op = 0x02#8 ∧ decodeCommand c = .ok (.encodeByte c.arg)) ∨
    (c.op = 0x03#8 ∧ decodeCommand c = .ok (.encodeSilence c.arg)) ∨
    (c.op = 0x04#8 ∧ decodeCommand c = .ok (.fileSync c.arg)) ∨
    (c.op = 0x05#8 ∧ decodeCommand c = .ok (.blockSync c.arg)) ∨
    (c.op = 0x06#8 ∧ decodeCommand c = .ok (.wavHeader c.arg)) ∨
    (c.op = 0x07#8 ∧ decodeCommand c = .ok (.convert c.arg)) ∨
    ((c.op = 0x00#8 ∨ 0x08#8 ≤ c.op) ∧ decodeCommand c = .error (.unassignedOp c.op)) := by
  obtain ⟨op, arg⟩ := c
  unfold decodeCommand
  dsimp only
  split <;> simp
  next h1 h2 h3 h4 h5 h6 h7 =>
    rw [BitVec.le_def]
    by_contra hn
    have hn : ¬ op = 0#8 ∧ op.toNat < 8 := by simpa using hn
    have e : op = BitVec.ofNat 8 op.toNat := by simp
    obtain ⟨h0, hlt⟩ := hn
    generalize op.toNat = k at *
    interval_cases k <;> simp_all

end Sys2Proof
end

