-- ==== Sys2Proof/Laws/State.lean ====
section
/-! SUPPORT. What each update of State leaves in each field. -/

namespace Sys2Proof.Machine

variable (s : State)

/-! ### loadInput -/

@[simp] theorem State.loadInput_input (bytes : List Byte) : (s.loadInput bytes).input = Memory.ofBytes bytes := rfl
@[simp] theorem State.loadInput_n (bytes : List Byte) : (s.loadInput bytes).n = bytes.length := rfl
@[simp] theorem State.loadInput_out (bytes : List Byte) : (s.loadInput bytes).out = s.out := rfl
@[simp] theorem State.loadInput_cur (bytes : List Byte) : (s.loadInput bytes).cur = s.cur := rfl
@[simp] theorem State.loadInput_id (bytes : List Byte) : (s.loadInput bytes).id = s.id := rfl
@[simp] theorem State.loadInput_len (bytes : List Byte) : (s.loadInput bytes).len = s.len := rfl
@[simp] theorem State.loadInput_phase (bytes : List Byte) : (s.loadInput bytes).phase = s.phase := rfl
@[simp] theorem State.loadInput_err (bytes : List Byte) : (s.loadInput bytes).err = s.err := rfl
@[simp] theorem State.loadInput_cmd (bytes : List Byte) : (s.loadInput bytes).cmd = s.cmd := rfl
@[simp] theorem State.loadInput_issued (bytes : List Byte) : (s.loadInput bytes).issued = s.issued := rfl
@[simp] theorem State.loadInput_inputLoaded (bytes : List Byte) : (s.loadInput bytes).inputLoaded = true := rfl

/-! ### setCur -/

@[simp] theorem State.setCur_input (c : Nat) : (s.setCur c).input = s.input := rfl
@[simp] theorem State.setCur_n (c : Nat) : (s.setCur c).n = s.n := rfl
@[simp] theorem State.setCur_out (c : Nat) : (s.setCur c).out = s.out := rfl
@[simp] theorem State.setCur_cur (c : Nat) : (s.setCur c).cur = Latch.write c := rfl
@[simp] theorem State.setCur_id (c : Nat) : (s.setCur c).id = s.id := rfl
@[simp] theorem State.setCur_len (c : Nat) : (s.setCur c).len = s.len := rfl
@[simp] theorem State.setCur_phase (c : Nat) : (s.setCur c).phase = s.phase := rfl
@[simp] theorem State.setCur_err (c : Nat) : (s.setCur c).err = s.err := rfl
@[simp] theorem State.setCur_cmd (c : Nat) : (s.setCur c).cmd = s.cmd := rfl
@[simp] theorem State.setCur_issued (c : Nat) : (s.setCur c).issued = s.issued := rfl
@[simp] theorem State.setCur_inputLoaded (c : Nat) : (s.setCur c).inputLoaded = s.inputLoaded := rfl

/-! ### setId -/

@[simp] theorem State.setId_input (b : Byte) : (s.setId b).input = s.input := rfl
@[simp] theorem State.setId_n (b : Byte) : (s.setId b).n = s.n := rfl
@[simp] theorem State.setId_out (b : Byte) : (s.setId b).out = s.out := rfl
@[simp] theorem State.setId_cur (b : Byte) : (s.setId b).cur = s.cur := rfl
@[simp] theorem State.setId_id (b : Byte) : (s.setId b).id = Latch.write b := rfl
@[simp] theorem State.setId_len (b : Byte) : (s.setId b).len = s.len := rfl
@[simp] theorem State.setId_phase (b : Byte) : (s.setId b).phase = s.phase := rfl
@[simp] theorem State.setId_err (b : Byte) : (s.setId b).err = s.err := rfl
@[simp] theorem State.setId_cmd (b : Byte) : (s.setId b).cmd = s.cmd := rfl
@[simp] theorem State.setId_issued (b : Byte) : (s.setId b).issued = s.issued := rfl
@[simp] theorem State.setId_inputLoaded (b : Byte) : (s.setId b).inputLoaded = s.inputLoaded := rfl

/-! ### setLen -/

@[simp] theorem State.setLen_input (l : Length) : (s.setLen l).input = s.input := rfl
@[simp] theorem State.setLen_n (l : Length) : (s.setLen l).n = s.n := rfl
@[simp] theorem State.setLen_out (l : Length) : (s.setLen l).out = s.out := rfl
@[simp] theorem State.setLen_cur (l : Length) : (s.setLen l).cur = s.cur := rfl
@[simp] theorem State.setLen_id (l : Length) : (s.setLen l).id = s.id := rfl
@[simp] theorem State.setLen_len (l : Length) : (s.setLen l).len = Latch.write l := rfl
@[simp] theorem State.setLen_phase (l : Length) : (s.setLen l).phase = s.phase := rfl
@[simp] theorem State.setLen_err (l : Length) : (s.setLen l).err = s.err := rfl
@[simp] theorem State.setLen_cmd (l : Length) : (s.setLen l).cmd = s.cmd := rfl
@[simp] theorem State.setLen_issued (l : Length) : (s.setLen l).issued = s.issued := rfl
@[simp] theorem State.setLen_inputLoaded (l : Length) : (s.setLen l).inputLoaded = s.inputLoaded := rfl

/-! ### setPhase -/

@[simp] theorem State.setPhase_input (p : Phase) : (s.setPhase p).input = s.input := rfl
@[simp] theorem State.setPhase_n (p : Phase) : (s.setPhase p).n = s.n := rfl
@[simp] theorem State.setPhase_out (p : Phase) : (s.setPhase p).out = s.out := rfl
@[simp] theorem State.setPhase_cur (p : Phase) : (s.setPhase p).cur = s.cur := rfl
@[simp] theorem State.setPhase_id (p : Phase) : (s.setPhase p).id = s.id := rfl
@[simp] theorem State.setPhase_len (p : Phase) : (s.setPhase p).len = s.len := rfl
@[simp] theorem State.setPhase_phase (p : Phase) : (s.setPhase p).phase = p := rfl
@[simp] theorem State.setPhase_err (p : Phase) : (s.setPhase p).err = s.err := rfl
@[simp] theorem State.setPhase_cmd (p : Phase) : (s.setPhase p).cmd = s.cmd := rfl
@[simp] theorem State.setPhase_issued (p : Phase) : (s.setPhase p).issued = s.issued := rfl
@[simp] theorem State.setPhase_inputLoaded (p : Phase) : (s.setPhase p).inputLoaded = s.inputLoaded := rfl

/-! ### clearErr -/

@[simp] theorem State.clearErr_input : (s.clearErr).input = s.input := rfl
@[simp] theorem State.clearErr_n : (s.clearErr).n = s.n := rfl
@[simp] theorem State.clearErr_out : (s.clearErr).out = s.out := rfl
@[simp] theorem State.clearErr_cur : (s.clearErr).cur = s.cur := rfl
@[simp] theorem State.clearErr_id : (s.clearErr).id = s.id := rfl
@[simp] theorem State.clearErr_len : (s.clearErr).len = s.len := rfl
@[simp] theorem State.clearErr_phase : (s.clearErr).phase = s.phase := rfl
@[simp] theorem State.clearErr_err : (s.clearErr).err = .none := rfl
@[simp] theorem State.clearErr_cmd : (s.clearErr).cmd = s.cmd := rfl
@[simp] theorem State.clearErr_issued : (s.clearErr).issued = s.issued := rfl
@[simp] theorem State.clearErr_inputLoaded : (s.clearErr).inputLoaded = s.inputLoaded := rfl

/-! ### takeCommand -/

@[simp] theorem State.takeCommand_input : (s.takeCommand).input = s.input := rfl
@[simp] theorem State.takeCommand_n : (s.takeCommand).n = s.n := rfl
@[simp] theorem State.takeCommand_out : (s.takeCommand).out = s.out := rfl
@[simp] theorem State.takeCommand_cur : (s.takeCommand).cur = s.cur := rfl
@[simp] theorem State.takeCommand_id : (s.takeCommand).id = s.id := rfl
@[simp] theorem State.takeCommand_len : (s.takeCommand).len = s.len := rfl
@[simp] theorem State.takeCommand_phase : (s.takeCommand).phase = s.phase := rfl
@[simp] theorem State.takeCommand_err : (s.takeCommand).err = s.err := rfl
@[simp] theorem State.takeCommand_cmd : (s.takeCommand).cmd = s.cmd := rfl
@[simp] theorem State.takeCommand_issued : (s.takeCommand).issued = false := rfl
@[simp] theorem State.takeCommand_inputLoaded : (s.takeCommand).inputLoaded = s.inputLoaded := rfl

/-! ### append -/

@[simp] theorem State.append_input (xs : List Byte) : (s.append xs).input = s.input := rfl
@[simp] theorem State.append_n (xs : List Byte) : (s.append xs).n = s.n := rfl
@[simp] theorem State.append_out (xs : List Byte) : (s.append xs).out = s.out ++ xs := rfl
@[simp] theorem State.append_cur (xs : List Byte) : (s.append xs).cur = s.cur := rfl
@[simp] theorem State.append_id (xs : List Byte) : (s.append xs).id = s.id := rfl
@[simp] theorem State.append_len (xs : List Byte) : (s.append xs).len = s.len := rfl
@[simp] theorem State.append_phase (xs : List Byte) : (s.append xs).phase = s.phase := rfl
@[simp] theorem State.append_err (xs : List Byte) : (s.append xs).err = s.err := rfl
@[simp] theorem State.append_cmd (xs : List Byte) : (s.append xs).cmd = s.cmd := rfl
@[simp] theorem State.append_issued (xs : List Byte) : (s.append xs).issued = s.issued := rfl
@[simp] theorem State.append_inputLoaded (xs : List Byte) : (s.append xs).inputLoaded = s.inputLoaded := rfl

/-! ### replaceOut -/

@[simp] theorem State.replaceOut_input (xs : List Byte) : (s.replaceOut xs).input = s.input := rfl
@[simp] theorem State.replaceOut_n (xs : List Byte) : (s.replaceOut xs).n = s.n := rfl
@[simp] theorem State.replaceOut_out (xs : List Byte) : (s.replaceOut xs).out = xs := rfl
@[simp] theorem State.replaceOut_cur (xs : List Byte) : (s.replaceOut xs).cur = s.cur := rfl
@[simp] theorem State.replaceOut_id (xs : List Byte) : (s.replaceOut xs).id = s.id := rfl
@[simp] theorem State.replaceOut_len (xs : List Byte) : (s.replaceOut xs).len = s.len := rfl
@[simp] theorem State.replaceOut_phase (xs : List Byte) : (s.replaceOut xs).phase = s.phase := rfl
@[simp] theorem State.replaceOut_err (xs : List Byte) : (s.replaceOut xs).err = s.err := rfl
@[simp] theorem State.replaceOut_cmd (xs : List Byte) : (s.replaceOut xs).cmd = s.cmd := rfl
@[simp] theorem State.replaceOut_issued (xs : List Byte) : (s.replaceOut xs).issued = s.issued := rfl
@[simp] theorem State.replaceOut_inputLoaded (xs : List Byte) : (s.replaceOut xs).inputLoaded = s.inputLoaded := rfl

/-! ### deliver -/

@[simp] theorem State.deliver_input (xs : List Byte) : (s.deliver xs).input = s.input := rfl
@[simp] theorem State.deliver_n (xs : List Byte) : (s.deliver xs).n = s.n := rfl
@[simp] theorem State.deliver_out (xs : List Byte) : (s.deliver xs).out = xs := rfl
@[simp] theorem State.deliver_cur (xs : List Byte) : (s.deliver xs).cur = s.cur := rfl
@[simp] theorem State.deliver_id (xs : List Byte) : (s.deliver xs).id = s.id := rfl
@[simp] theorem State.deliver_len (xs : List Byte) : (s.deliver xs).len = s.len := rfl
@[simp] theorem State.deliver_phase (xs : List Byte) : (s.deliver xs).phase = .done := rfl
@[simp] theorem State.deliver_err (xs : List Byte) : (s.deliver xs).err = s.err := rfl
@[simp] theorem State.deliver_cmd (xs : List Byte) : (s.deliver xs).cmd = s.cmd := rfl
@[simp] theorem State.deliver_issued (xs : List Byte) : (s.deliver xs).issued = s.issued := rfl
@[simp] theorem State.deliver_inputLoaded (xs : List Byte) : (s.deliver xs).inputLoaded = s.inputLoaded := rfl

/-! ### raise -/

@[simp] theorem State.raise_input (e : Err) : (s.raise e).input = s.input := rfl
@[simp] theorem State.raise_n (e : Err) : (s.raise e).n = s.n := rfl
@[simp] theorem State.raise_out (e : Err) : (s.raise e).out = [] := rfl
@[simp] theorem State.raise_cur (e : Err) : (s.raise e).cur = s.cur := rfl
@[simp] theorem State.raise_id (e : Err) : (s.raise e).id = s.id := rfl
@[simp] theorem State.raise_len (e : Err) : (s.raise e).len = s.len := rfl
@[simp] theorem State.raise_phase (e : Err) : (s.raise e).phase = .error := rfl
@[simp] theorem State.raise_err (e : Err) : (s.raise e).err = e := rfl
@[simp] theorem State.raise_cmd (e : Err) : (s.raise e).cmd = s.cmd := rfl
@[simp] theorem State.raise_issued (e : Err) : (s.raise e).issued = s.issued := rfl
@[simp] theorem State.raise_inputLoaded (e : Err) : (s.raise e).inputLoaded = s.inputLoaded := rfl

/-! ### restart -/

@[simp] theorem State.restart_input : (s.restart).input = s.input := rfl
@[simp] theorem State.restart_n : (s.restart).n = s.n := rfl
@[simp] theorem State.restart_out : (s.restart).out = [] := rfl
@[simp] theorem State.restart_cur : (s.restart).cur = ⟨0, false⟩ := rfl
@[simp] theorem State.restart_id : (s.restart).id = ⟨0#8, false⟩ := rfl
@[simp] theorem State.restart_len : (s.restart).len = ⟨0#16, false⟩ := rfl
@[simp] theorem State.restart_phase : (s.restart).phase = .idle := rfl
@[simp] theorem State.restart_err : (s.restart).err = .none := rfl
@[simp] theorem State.restart_cmd : (s.restart).cmd = s.cmd := rfl
@[simp] theorem State.restart_issued : (s.restart).issued = false := rfl
@[simp] theorem State.restart_inputLoaded : (s.restart).inputLoaded = false := rfl

/-! ### answer and latches -/

@[simp] theorem State.answer_ok (xs : List Byte) : s.answer (.ok xs) = s.clearErr.deliver xs := rfl
@[simp] theorem State.answer_error (e : Err) : s.answer (.error e) = s.clearErr.raise e := rfl
@[simp] theorem Latch.contents_write {α : Type} (v : α) : (Latch.write v).contents = some v := rfl
@[simp] theorem Latch.write_value {α : Type} (v : α) : (Latch.write v).value = v := rfl
@[simp] theorem Latch.write_held {α : Type} (v : α) : (Latch.write v).held = true := rfl

end Sys2Proof.Machine
end

