-- ==== Sys2Proof/Laws/Memory.lean ====
section
/-! SUPPORT. The input memory: reads after writes, the canonical form, and IN as a sequence of bytes. -/

namespace Sys2Proof.Machine

theorem Memory.wf_nil : Memory.wf [] := by simp [Memory.wf]

theorem Memory.wf_cons {k : Nat} {v : Byte} {m : Memory} :
    Memory.wf ((k, v) :: m) ↔ (∀ c ∈ m, k < c.1) ∧ v ≠ unlistedByte ∧ Memory.wf m := by
  simp only [Memory.wf, List.map_cons, List.pairwise_cons, List.mem_map, List.forall_mem_cons,
    forall_exists_index, and_imp, forall_apply_eq_imp_iff₂]
  tauto

/-- An offset below every listed one is unlisted. -/
theorem Memory.read_below {m : Memory} {a : Nat} (h : ∀ c ∈ m, a < c.1) : Memory.read m a = unlistedByte := by
  induction m with
  | nil => rfl
  | cons c m ih =>
    obtain ⟨k, v⟩ := c
    have hk : a < k := h (k, v) (by simp)
    simp only [Memory.read, if_neg (Nat.ne_of_lt hk)]
    exact ih fun c hc => h c (by simp [hc])

theorem Memory.read_cell (a : Nat) (b : Byte) (rest : Memory) (h : ∀ c ∈ rest, a < c.1) (x : Nat) :
    Memory.read (Memory.cell a b rest) x = if x = a then b else Memory.read rest x := by
  unfold Memory.cell
  split
  · next hb =>
    split
    · next hx => rw [hx, Memory.read_below h, hb]
    · rfl
  · rfl

theorem Memory.wf_cell {a : Nat} {b : Byte} {rest : Memory} (h : ∀ c ∈ rest, a < c.1) (hw : Memory.wf rest) :
    Memory.wf (Memory.cell a b rest) := by
  unfold Memory.cell
  split
  · exact hw
  · next hb => exact Memory.wf_cons.2 ⟨h, hb, hw⟩

theorem Memory.mem_cell {a : Nat} {b : Byte} {rest : Memory} {c : Host.Cell} (h : c ∈ Memory.cell a b rest) :
    c = (a, b) ∨ c ∈ rest := by
  unfold Memory.cell at h
  split at h
  · exact .inr h
  · simpa using h

/-- A write lists no offset but its own and those listed before. -/
theorem Memory.mem_write {m : Memory} {a : Nat} {b : Byte} {c : Host.Cell} (h : c ∈ Memory.write m a b) :
    c = (a, b) ∨ c ∈ m := by
  induction m with
  | nil => exact Memory.mem_cell h
  | cons d m ih =>
    obtain ⟨k, v⟩ := d
    simp only [Memory.write] at h
    split at h
    · exact Memory.mem_cell h
    · split at h
      · rcases Memory.mem_cell h with h | h
        · exact .inl h
        · exact .inr (by simp [h])
      · rcases List.mem_cons.1 h with h | h
        · exact .inr (by simp [h])
        · rcases ih h with h | h
          · exact .inl h
          · exact .inr (by simp [h])

/-- A read after a write, in one lemma over both operations. -/
theorem Memory.write_spec (m : Memory) (a : Nat) (b : Byte) (hw : Memory.wf m) :
    Memory.wf (Memory.write m a b) ∧
      ∀ x, Memory.read (Memory.write m a b) x = if x = a then b else Memory.read m x := by
  induction m with
  | nil =>
    exact ⟨Memory.wf_cell (by simp) Memory.wf_nil, fun x => Memory.read_cell a b [] (by simp) x⟩
  | cons c m ih =>
    obtain ⟨k, v⟩ := c
    obtain ⟨hk, hv, hm⟩ := Memory.wf_cons.1 hw
    obtain ⟨ihw, ihr⟩ := ih hm
    simp only [Memory.write]
    split
    · next hlt =>
      have hall : ∀ c ∈ ((k, v) :: m : Memory), a < c.1 := by
        intro c hc
        rcases List.mem_cons.1 hc with rfl | hc
        · exact hlt
        · exact Nat.lt_trans hlt (hk c hc)
      exact ⟨Memory.wf_cell hall hw, Memory.read_cell a b _ hall⟩
    · split
      · next hak =>
        subst hak
        refine ⟨Memory.wf_cell hk hm, fun x => ?_⟩
        rw [Memory.read_cell a b m hk x]
        split
        · rfl
        · next hx => simp only [Memory.read, if_neg hx]
      · next hge hne =>
        refine ⟨Memory.wf_cons.2 ⟨fun c hc => ?_, hv, ihw⟩, fun x => ?_⟩
        · rcases Memory.mem_write hc with rfl | hc
          · show k < a
            omega
          · exact hk c hc
        · simp only [Memory.read, ihr]
          split
          · next hx => rw [if_neg (by omega)]
          · rfl

/-- What a load leaves: the canonical form, the loaded bytes, every other byte as before. -/
theorem Memory.load_spec (bytes : List Byte) (m : Memory) (a : Nat) (hw : Memory.wf m) :
    Memory.wf (Memory.load m a bytes) ∧
      ∀ x, Memory.read (Memory.load m a bytes) x =
        if a ≤ x ∧ x < a + bytes.length then bytes.getD (x - a) unlistedByte else Memory.read m x := by
  induction bytes generalizing m a with
  | nil => exact ⟨hw, fun x => by rw [if_neg (by simp)]; rfl⟩
  | cons b bytes ih =>
    obtain ⟨hw', hr'⟩ := Memory.write_spec m a b hw
    obtain ⟨ihw, ihr⟩ := ih (Memory.write m a b) (a + 1) hw'
    refine ⟨ihw, fun x => ?_⟩
    simp only [Memory.load, ihr, hr', List.length_cons]
    by_cases hx : x = a
    · subst hx
      rw [if_neg (by omega), if_pos rfl, if_pos (by omega)]
      simp
    · by_cases hin : a + 1 ≤ x ∧ x < a + 1 + bytes.length
      · rw [if_pos hin, if_pos (by omega), show x - a = (x - (a + 1)) + 1 by omega]
        simp
      · rw [if_neg hin, if_neg hx, if_neg (by omega)]

theorem Memory.mem_load {bytes : List Byte} {m : Memory} {a : Nat} {c : Host.Cell}
    (h : c ∈ Memory.load m a bytes) : c ∈ m ∨ a ≤ c.1 ∧ c.1 < a + bytes.length := by
  induction bytes generalizing m a with
  | nil => exact .inl h
  | cons b bytes ih =>
    simp only [List.length_cons]
    rcases ih h with h | h
    · rcases Memory.mem_write h with rfl | h
      · exact .inr ⟨Nat.le_refl a, by show a < _; omega⟩
      · exact .inl h
    · exact .inr (by omega)

/-! ### IN as a sequence -/

@[simp] theorem State.inBytes_length (s : State) : s.inBytes.length = s.n := by simp [State.inBytes]

theorem State.inBytes_getElem? (s : State) (a : Nat) : s.inBytes[a]? = s.byteAt a := by
  unfold State.inBytes State.byteAt
  by_cases h : a < s.n <;> simp [h]

theorem State.byteAt_eq_some {s : State} {a : Nat} {b : Byte} :
    s.byteAt a = some b ↔ a < s.n ∧ Memory.read s.input a = b := by
  unfold State.byteAt
  split <;> simp_all

/-- Reading a run of offsets that all lie below N gives their bytes. -/
theorem State.bytesAt_eq (s : State) (a k : Nat) (h : a + k ≤ s.n) :
    s.bytesAt a k = some ((List.range k).map fun j => Memory.read s.input (a + j)) := by
  induction k generalizing a with
  | zero => rfl
  | succ k ih =>
    have ha : a < s.n := by omega
    simp only [State.bytesAt, State.byteAt, if_pos ha, ih (a + 1) (by omega), Option.map_some,
      List.range_succ_eq_map, List.map_cons, List.map_map, Nat.add_zero, Option.some.injEq, List.cons.injEq, true_and]
    refine List.map_congr_left fun j _ => ?_
    simp only [Function.comp]
    congr 1
    omega

/-- A read of a run either lies below N or gives nothing. -/
theorem State.inBytes_slice (s : State) (a k : Nat) (h : a + k ≤ s.n) :
    ((s.inBytes.drop a).take k) = (List.range k).map fun j => Memory.read s.input (a + j) := by
  apply List.ext_getElem?
  intro j
  by_cases hj : j < k
  · rw [List.getElem?_take_of_lt hj, List.getElem?_drop, State.inBytes_getElem?]
    simp [State.byteAt, hj, show a + j < s.n by omega]
  · rw [List.getElem?_eq_none (by simp; omega), List.getElem?_eq_none (by simp; omega)]

end Sys2Proof.Machine
end

