-- ==== Sys2Proof/Laws/WavHeader.lean ====
section
/-! SUPPORT. The WAV header and the container. -/

namespace Sys2Proof.Machine

@[simp] theorem wavHeaderBytes_length (count : Nat) : (wavHeaderBytes count).length = 44 := rfl

theorem sizeOperand_ok {count : Nat} (h : count ≤ maxSamples) : sizeOperand count = .ok count := by
  rw [sizeOperand, if_neg (by omega)]

theorem sizeOperand_error {count : Nat} (h : maxSamples < count) : sizeOperand count = .error .sizeOverflow := by
  rw [sizeOperand, if_pos h]

theorem wavContainer_ok {samples : List Byte} (h : samples.length ≤ maxSamples) :
    wavContainer samples = .ok (wavHeaderBytes samples.length ++ samples) := by
  rw [wavContainer, sizeOperand_ok h]; rfl

theorem wavContainer_error {samples : List Byte} (h : maxSamples < samples.length) :
    wavContainer samples = .error .sizeOverflow := by
  rw [wavContainer, sizeOperand_error h]; rfl

/-- What the container of a sample sequence can be. -/
theorem wavContainer_cases (samples : List Byte) :
    (samples.length ≤ maxSamples ∧ wavContainer samples = .ok (wavHeaderBytes samples.length ++ samples)) ∨
    (maxSamples < samples.length ∧ wavContainer samples = .error .sizeOverflow) := by
  rcases Nat.lt_or_ge maxSamples samples.length with h | h
  · exact .inr ⟨h, wavContainer_error h⟩
  · exact .inl ⟨h, wavContainer_ok h⟩

end Sys2Proof.Machine
end

