-- ==== Sys2Proof/Laws/Step.lean ====
section
/-! SUPPORT. What a step can do, said once per phase: an equation for each phase, and the cases of the two steps that
decide something. -/

namespace Sys2Proof.Machine

/-! ### Which step PHASE fixes -/

theorem step_quiescent {s : State} (h : s.phase.quiescent = true) : step s = quiescentStep s := by
  unfold step blockStep
  cases hp : s.phase <;> simp_all [Phase.quiescent]

theorem step_init {s : State} (h : s.phase = .init) : step s = .next (initStep s) := by
  simp [step, blockStep, h]

theorem step_leadIn {s : State} (h : s.phase = .leadIn) : step s = .next (leadInStep s) := by
  simp [step, blockStep, h]

theorem step_scan {s : State} (h : s.phase = .scan) : step s = scanStep s := by
  simp [step, blockStep, h]

theorem step_tail {s : State} (h : s.phase = .tail) : step s = .next (tailStep s) := by
  simp [step, blockStep, h]

theorem step_final {s : State} (h : s.phase = .final) : step s = .next (finalStep s) := by
  simp [step, blockStep, h]

theorem step_waits {s : State} (h : s.phase.quiescent = true) (hi : s.issued = false) : step s = .next s := by
  rw [step_quiescent h, quiescentStep, hi]; rfl

theorem step_accepts {s : State} (h : s.phase.quiescent = true) (hi : s.issued = true) : step s = acceptStep s := by
  rw [step_quiescent h, quiescentStep, hi]; rfl

/-! ### The record instructions -/

/-- The state a data record leaves when its payload lies within IN (R96 to R100). -/
def consumed (id : Byte) (len : Length) (s : State) : State :=
  (((s.setId id).setLen len).append (blockSyncPulses ++ payloadPulses
    ((List.range len.toNat).map fun k => Memory.read s.input (payloadOffset s.cur.value + k)))).setCur
    (recordEnd s.cur.value len)

/-- The state a data record leaves when its payload is cut (R97, R131). -/
def truncated (id : Byte) (len : Length) (s : State) : State := ((s.setId id).setLen len).raise .truncatedInput

theorem runBlock_consumes {id : Byte} {len : Length} {s : State} (h : recordEnd s.cur.value len ≤ s.n) :
    runBlock id len s = .next (consumed id len s) := by
  unfold runBlock consumed
  simp only
  rw [if_neg (by omega), State.bytesAt_eq s (payloadOffset s.cur.value) len.toNat h]

theorem runBlock_truncates {id : Byte} {len : Length} {s : State} (h : s.n < recordEnd s.cur.value len) :
    runBlock id len s = .next (truncated id len s) := by
  unfold runBlock truncated
  simp only
  rw [if_pos h]

/-- What a data record does on any state. -/
theorem runBlock_cases (id : Byte) (len : Length) (s : State) :
    (recordEnd s.cur.value len ≤ s.n ∧ runBlock id len s = .next (consumed id len s)) ∨
    (s.n < recordEnd s.cur.value len ∧ runBlock id len s = .next (truncated id len s)) := by
  rcases Nat.lt_or_ge s.n (recordEnd s.cur.value len) with h | h
  · exact .inr ⟨h, runBlock_truncates h⟩
  · exact .inl ⟨h, runBlock_consumes h⟩

/-! ### The SCAN step -/

theorem scanGuard_iff {s : State} : scanGuard s = true ↔ s.cur.value + 3 < s.n := by
  unfold scanGuard
  exact decide_eq_true_iff

/-- Where the guard holds, the bytes of the record at CUR can be read. -/
theorem fetchRecord_eq {s : State} (h : s.cur.value + 3 < s.n) :
    fetchRecord s = some
      (if isBlockId (Memory.read s.input s.cur.value) then
        [Memory.read s.input s.cur.value, Memory.read s.input (s.cur.value + 1), Memory.read s.input (s.cur.value + 2)]
      else [Memory.read s.input s.cur.value]) := by
  unfold fetchRecord
  rw [show s.byteAt s.cur.value = some (Memory.read s.input s.cur.value) from
    State.byteAt_eq_some.2 ⟨by omega, rfl⟩]
  dsimp only
  rw [State.bytesAt_eq s s.cur.value recordHeaderBytes (by unfold recordHeaderBytes; omega)]
  split <;> rfl

theorem scanStep_ends {s : State} (h : ¬ s.cur.value + 3 < s.n) : scanStep s = .next (s.setPhase .tail) := by
  rw [scanStep, if_neg (by rwa [scanGuard_iff])]

theorem scanStep_terminator {s : State} (h : s.cur.value + 3 < s.n)
    (hb : isBlockId (Memory.read s.input s.cur.value) = false) :
    scanStep s = .next ((s.setId (Memory.read s.input s.cur.value)).setPhase .tail) := by
  rw [scanStep, if_pos (scanGuard_iff.2 h), fetchRecord_eq h, hb]
  simp only [Bool.false_eq_true, if_false]
  rw [decodeRecord_terminator hb]
  rfl

theorem scanStep_block {s : State} (h : s.cur.value + 3 < s.n)
    (hb : isBlockId (Memory.read s.input s.cur.value) = true) :
    scanStep s = runBlock (Memory.read s.input s.cur.value)
      (assembleLength (Memory.read s.input (s.cur.value + 1)) (Memory.read s.input (s.cur.value + 2))) s := by
  rw [scanStep, if_pos (scanGuard_iff.2 h), fetchRecord_eq h, hb]
  simp only [if_true]
  rw [decodeRecord_block hb]
  rcases isBlockId_iff.1 hb with he | he <;> rw [he] <;> rfl

/-- Everything the SCAN step can do. -/
theorem scanStep_cases (s : State) :
    (¬ s.cur.value + 3 < s.n ∧ scanStep s = .next (s.setPhase .tail)) ∨
    (s.cur.value + 3 < s.n ∧ ∃ id, id = Memory.read s.input s.cur.value ∧
      ((isBlockId id = false ∧ scanStep s = .next ((s.setId id).setPhase .tail)) ∨
       (isBlockId id = true ∧ ∃ len, len = assembleLength (Memory.read s.input (s.cur.value + 1))
            (Memory.read s.input (s.cur.value + 2)) ∧
          ((recordEnd s.cur.value len ≤ s.n ∧ scanStep s = .next (consumed id len s)) ∨
           (s.n < recordEnd s.cur.value len ∧ scanStep s = .next (truncated id len s)))))) := by
  by_cases h : s.cur.value + 3 < s.n
  · refine .inr ⟨h, _, rfl, ?_⟩
    rcases hb : isBlockId (Memory.read s.input s.cur.value) with _ | _
    · exact .inl ⟨rfl, scanStep_terminator h hb⟩
    · refine .inr ⟨rfl, _, rfl, ?_⟩
      rw [scanStep_block h hb]
      exact runBlock_cases _ _ s
  · exact .inl ⟨h, scanStep_ends h⟩

/-! ### The FINAL step and the acceptance step -/

theorem finalStep_cases (s : State) :
    (s.out.length ≤ maxSamples ∧ finalStep s = s.deliver (wavHeaderBytes s.out.length ++ s.out)) ∨
    (maxSamples < s.out.length ∧ finalStep s = s.raise .sizeOverflow) := by
  unfold finalStep
  rcases wavContainer_cases s.out with ⟨h, e⟩ | ⟨h, e⟩
  · exact .inl ⟨h, by rw [e]⟩
  · exact .inr ⟨h, by rw [e]⟩

theorem acceptStep_ok {s : State} {i : Instr} (h : decodeCommand s.cmd = .ok i) :
    acceptStep s = exec i s.takeCommand := by rw [acceptStep, h]

theorem acceptStep_error {s : State} {r : Reject} (h : decodeCommand s.cmd = .error r) :
    acceptStep s = .next (s.takeCommand.clearErr.raise .unknownCommand) := by rw [acceptStep, h]

/-- Every command but CONVERT answers its operand in one step. -/
theorem exec_command {i : Instr} {s : State} (h : i.isRecord = false) :
    (∃ arg, i = .convert arg ∧ exec i s = .next (s.clearErr.setPhase .init)) ∨
    (∃ r, exec i s = .next (s.answer r)) := by
  cases i with
  | block55 _ | blockAA _ | terminator _ => simp [Instr.isRecord] at h
  | convert arg => exact .inl ⟨arg, rfl, rfl⟩
  | encodeBit _ | encodeByte _ | encodeSilence _ | fileSync _ | blockSync _ | wavHeader _ => exact .inr ⟨_, rfl⟩

end Sys2Proof.Machine
end

