-- ==== Sys2Proof/Laws/Waveform.lean ====
section
/-! SUPPORT. The sample runs: their lengths, their levels, and how a first pulse pair tells its bit. -/

namespace Sys2Proof.Machine

/-! ### Lengths (R4, R67, R89) -/

@[simp] theorem pulsePair_length (half : Nat) : (pulsePair half).length = 2 * half := by simp [pulsePair]; omega

theorem bitPulses_length (bit : Bool) : (bitPulses bit).length = if bit then 6 else 16 := by cases bit <;> rfl

@[simp] theorem silence_length (count : Nat) : (silence count).length = count := by simp [silence]

@[simp] theorem payloadPulses_nil : payloadPulses [] = [] := rfl

@[simp] theorem payloadPulses_cons (b : Byte) (bs : List Byte) :
    payloadPulses (b :: bs) = bytePulses b ++ payloadPulses bs := rfl

@[simp] theorem payloadPulses_append (xs ys : List Byte) :
    payloadPulses (xs ++ ys) = payloadPulses xs ++ payloadPulses ys := by simp [payloadPulses]

theorem payloadPulses_replicate (k : Nat) (b : Byte) :
    payloadPulses (List.replicate k b) = (List.replicate k (bytePulses b)).flatten := by
  rw [payloadPulses, List.flatMap_def, List.map_replicate]

theorem payloadPulses_length (bs : List Byte) :
    (payloadPulses bs).length = (bs.map fun b => (bytePulses b).length).sum := by
  simp [payloadPulses, List.length_flatMap]

theorem payloadPulses_replicate_length (k : Nat) (b : Byte) :
    (payloadPulses (List.replicate k b)).length = k * (bytePulses b).length := by
  rw [payloadPulses_length, List.map_replicate, List.sum_replicate, smul_eq_mul]

theorem fileSyncPulses_length : fileSyncPulses.length = 45056 := by
  rw [fileSyncPulses, payloadPulses_replicate_length]; rfl

theorem blockSyncPulses_length : blockSyncPulses.length = 4842 := by
  rw [blockSyncPulses, List.length_append, payloadPulses_replicate_length, payloadPulses_replicate_length]; rfl

theorem preamble_length : preamble.length = 47056 := by
  rw [preamble, List.length_append, silence_length, fileSyncPulses_length]; rfl

/-! ### Levels (R32) -/

/-- Every sample of the run is one of the three levels. -/
def Levels (xs : List Byte) : Prop := ∀ b ∈ xs, isLevel b = true

theorem Levels.append {xs ys : List Byte} (hx : Levels xs) (hy : Levels ys) : Levels (xs ++ ys) := by
  intro b hb
  rcases List.mem_append.1 hb with h | h
  · exact hx b h
  · exact hy b h

theorem levels_pulsePair (half : Nat) : Levels (pulsePair half) := by
  intro b hb
  rcases List.mem_append.1 hb with h | h <;> rw [(List.mem_replicate.1 h).2] <;> rfl

theorem levels_bitPulses (bit : Bool) : Levels (bitPulses bit) := levels_pulsePair _

theorem levels_bytePulses (b : Byte) : Levels (bytePulses b) := by
  intro x hx
  obtain ⟨i, _, hi⟩ := List.mem_flatMap.1 hx
  exact levels_bitPulses _ x hi

theorem levels_payloadPulses (bs : List Byte) : Levels (payloadPulses bs) := by
  intro x hx
  obtain ⟨b, _, hb⟩ := List.mem_flatMap.1 hx
  exact levels_bytePulses b x hb

theorem levels_silence (count : Nat) : Levels (silence count) := by
  intro b hb
  rw [(List.mem_replicate.1 hb).2]
  rfl

theorem levels_fileSyncPulses : Levels fileSyncPulses := levels_payloadPulses _

theorem levels_blockSyncPulses : Levels blockSyncPulses := (levels_payloadPulses _).append (levels_payloadPulses _)

theorem levels_preamble : Levels preamble := (levels_silence _).append levels_fileSyncPulses

/-! ### Self-clocking (R68) -/

/-- The fourth sample of a pulse pair tells its bit. -/
theorem bitPulses_fourth (bit : Bool) (rest : List Byte) :
    (bitPulses bit ++ rest)[3]? = some (if bit then negPeak else posPeak) := by cases bit <;> rfl

end Sys2Proof.Machine
end

