-- ==== Sys2Proof/Laws/Inversion.lean ====
section
/-! SUPPORT. Everything the acceptance step, any step and a host move can do, said once, and the inductions over runs of
events. -/

namespace Sys2Proof.Machine

/-- Why a command is turned away at its acceptance (R127, R129, R130, R132). -/
def Rejects (c : Command) (e : Err) : Prop :=
  (c.op = 0x01#8 ∧ 1 < c.arg ∧ e = .invalidOperand) ∨
  (c.op = 0x02#8 ∧ 255 < c.arg ∧ e = .invalidByte) ∨
  (c.op = 0x06#8 ∧ maxSamples < c.arg ∧ e = .sizeOverflow) ∨
  ((c.op = 0x00#8 ∨ 0x08#8 ≤ c.op) ∧ e = .unknownCommand)

theorem Rejects.ne_none {c : Command} {e : Err} (h : Rejects c e) : e ≠ .none := by
  rcases h with ⟨-, -, rfl⟩ | ⟨-, -, rfl⟩ | ⟨-, -, rfl⟩ | ⟨-, rfl⟩ <;> decide

/-- A result of a one-step command: an encoder's, or one header. -/
def IsOneStepResult (out : List Byte) : Prop :=
  IsEncoded out ∨ ∃ count, count ≤ maxSamples ∧ out = wavHeaderBytes count

theorem IsOneStepResult.isResult {out : List Byte} (h : IsOneStepResult out) : IsResult out :=
  h.elim .inl fun h => .inr (.inl h)

/-- Everything the acceptance step can do. -/
theorem acceptStep_cases (s : State) :
    (s.cmd.op = 0x07#8 ∧ acceptStep s = .next (s.takeCommand.clearErr.setPhase .init)) ∨
    (∃ xs, IsOneStepResult xs ∧ acceptStep s = .next (s.takeCommand.clearErr.deliver xs)) ∨
    (∃ e, Rejects s.cmd e ∧ acceptStep s = .next (s.takeCommand.clearErr.raise e)) := by
  rcases decodeCommand_cases s.cmd with ⟨h1, h2⟩ | ⟨h1, h2⟩ | ⟨h1, h2⟩ | ⟨h1, h2⟩ | ⟨h1, h2⟩ | ⟨h1, h2⟩ | ⟨h1, h2⟩ | ⟨h1, h2⟩
  · rw [acceptStep_ok h2]
    by_cases h : s.cmd.arg > 1
    · refine .inr (.inr ⟨.invalidOperand, .inl ⟨h1, h, rfl⟩, ?_⟩)
      simp [exec, execEncodeBit, bitOperand, h, Except.map]
    · refine .inr (.inl ⟨_, .inl (.inl ⟨s.cmd.arg == 1, rfl⟩), ?_⟩)
      simp only [exec, execEncodeBit, bitOperand, if_neg h]; rfl
  · rw [acceptStep_ok h2]
    by_cases h : s.cmd.arg > 255
    · refine .inr (.inr ⟨.invalidByte, .inr (.inl ⟨h1, h, rfl⟩), ?_⟩)
      simp [exec, execEncodeByte, byteOperand, h, Except.map]
    · refine .inr (.inl ⟨_, .inl (.inr (.inl ⟨BitVec.ofNat 8 s.cmd.arg, rfl⟩)), ?_⟩)
      simp only [exec, execEncodeByte, byteOperand, if_neg h]; rfl
  · rw [acceptStep_ok h2]
    exact .inr (.inl ⟨_, .inl (.inr (.inr (.inl ⟨s.cmd.arg, rfl⟩))), rfl⟩)
  · rw [acceptStep_ok h2]
    exact .inr (.inl ⟨_, .inl (.inr (.inr (.inr (.inl rfl)))), rfl⟩)
  · rw [acceptStep_ok h2]
    exact .inr (.inl ⟨_, .inl (.inr (.inr (.inr (.inr rfl)))), rfl⟩)
  · rw [acceptStep_ok h2]
    rcases Nat.lt_or_ge maxSamples s.cmd.arg with h | h
    · refine .inr (.inr ⟨.sizeOverflow, .inr (.inr (.inl ⟨h1, h, rfl⟩)), ?_⟩)
      simp [exec, execWavHeader, sizeOperand_error h, Except.map]
    · refine .inr (.inl ⟨_, .inr ⟨s.cmd.arg, h, rfl⟩, ?_⟩)
      simp only [exec, execWavHeader, sizeOperand_ok h]; rfl
  · rw [acceptStep_ok h2]
    exact .inl ⟨h1, rfl⟩
  · rw [acceptStep_error h2]
    exact .inr (.inr ⟨.unknownCommand, .inr (.inr (.inr ⟨h1, rfl⟩)), rfl⟩)

/-- Everything a step can do: a block that waits, an acceptance in its three outcomes, and the steps of a conversion. -/
inductive Stepped (s : State) : State → Prop where
  | waits (hq : s.phase.quiescent = true) (hi : s.issued = false) : Stepped s s
  | starts (hq : s.phase.quiescent = true) (hi : s.issued = true) (hc : s.cmd.op = 0x07#8) :
      Stepped s (s.takeCommand.clearErr.setPhase .init)
  | delivers (hq : s.phase.quiescent = true) (hi : s.issued = true) (xs : List Byte) (hx : IsOneStepResult xs) :
      Stepped s (s.takeCommand.clearErr.deliver xs)
  | rejects (hq : s.phase.quiescent = true) (hi : s.issued = true) (e : Err) (he : Rejects s.cmd e) :
      Stepped s (s.takeCommand.clearErr.raise e)
  | init (hp : s.phase = .init) : Stepped s (initStep s)
  | leadIn (hp : s.phase = .leadIn) : Stepped s (leadInStep s)
  | scanEnds (hp : s.phase = .scan) (hg : ¬ s.cur.value + 3 < s.n) : Stepped s (s.setPhase .tail)
  | terminates (hp : s.phase = .scan) (hg : s.cur.value + 3 < s.n) (id : Byte)
      (hid : id = Memory.read s.input s.cur.value) (hb : isBlockId id = false) : Stepped s ((s.setId id).setPhase .tail)
  | consumes (hp : s.phase = .scan) (hg : s.cur.value + 3 < s.n) (id : Byte) (len : Length)
      (hid : id = Memory.read s.input s.cur.value) (hb : isBlockId id = true)
      (hl : recordEnd s.cur.value len ≤ s.n) : Stepped s (consumed id len s)
  | truncates (hp : s.phase = .scan) (hg : s.cur.value + 3 < s.n) (id : Byte) (len : Length)
      (hid : id = Memory.read s.input s.cur.value) (hb : isBlockId id = true)
      (hl : s.n < recordEnd s.cur.value len) : Stepped s (truncated id len s)
  | tail (hp : s.phase = .tail) : Stepped s (tailStep s)
  | composes (hp : s.phase = .final) (hl : s.out.length ≤ maxSamples) :
      Stepped s (s.deliver (wavHeaderBytes s.out.length ++ s.out))
  | overflows (hp : s.phase = .final) (hl : maxSamples < s.out.length) : Stepped s (s.raise .sizeOverflow)

/-- A step from any state is one of these. -/
theorem step_cases (s : State) : ∃ t, step s = .next t ∧ Stepped s t := by
  have quiet (hq : s.phase.quiescent = true) : ∃ t, step s = .next t ∧ Stepped s t := by
    rcases hi : s.issued with _ | _
    · exact ⟨_, step_waits hq hi, .waits hq hi⟩
    · rw [step_accepts hq hi]
      rcases acceptStep_cases s with ⟨hc, e⟩ | ⟨xs, hx, e⟩ | ⟨er, he, e⟩
      · exact ⟨_, e, .starts hq hi hc⟩
      · exact ⟨_, e, .delivers hq hi xs hx⟩
      · exact ⟨_, e, .rejects hq hi er he⟩
  cases hp : s.phase with
  | idle | done | error => exact quiet (by rw [hp]; rfl)
  | init => exact ⟨_, step_init hp, .init hp⟩
  | leadIn => exact ⟨_, step_leadIn hp, .leadIn hp⟩
  | scan =>
    rw [step_scan hp]
    rcases scanStep_cases s with ⟨hg, e⟩ | ⟨hg, id, hid, ⟨hb, e⟩ | ⟨hb, len, -, ⟨hl, e⟩ | ⟨hl, e⟩⟩⟩
    · exact ⟨_, e, .scanEnds hp hg⟩
    · exact ⟨_, e, .terminates hp hg id hid hb⟩
    · exact ⟨_, e, .consumes hp hg id len hid hb hl⟩
    · exact ⟨_, e, .truncates hp hg id len hid hb hl⟩
  | tail => exact ⟨_, step_tail hp, .tail hp⟩
  | final =>
    rw [step_final hp]
    rcases finalStep_cases s with ⟨hl, e⟩ | ⟨hl, e⟩ <;> rw [e]
    · exact ⟨_, rfl, .composes hp hl⟩
    · exact ⟨_, rfl, .overflows hp hl⟩

theorem stepped_of_step {s t : State} (h : step s = .next t) : Stepped s t := by
  obtain ⟨u, hu, hs⟩ := step_cases s
  rw [h] at hu
  cases hu
  exact hs

/-- A block event is a step. -/
theorem event_blockStep {s t : State} : event .blockStep s = some t ↔ step s = .next t := by
  simp only [event]
  rcases step s with u | r | r <;> simp

/-- Everything a host move can do. -/
theorem hostMove_cases {m : HostMove} {s t : State} (h : hostMove m s = some t) :
    (∃ bytes, m = .loadInput bytes ∧ s.phase.quiescent = true ∧ t = s.loadInput bytes) ∨
    (∃ c, m = .issue c ∧ s.phase.quiescent = true ∧ t = { s with cmd := c, issued := true }) ∨
    (∃ v, m = .writeStatus v ∧ t = s) ∨ (m = .reset ∧ t = s.restart) := by
  cases m with
  | loadInput bytes =>
    simp only [hostMove] at h
    split at h <;> cases h
    exact .inl ⟨bytes, rfl, ‹_›, rfl⟩
  | issue c =>
    simp only [hostMove] at h
    split at h <;> cases h
    next hc => exact .inr (.inl ⟨c, rfl, (Bool.and_eq_true_iff.1 hc).1, rfl⟩)
  | writeStatus v => cases h; exact .inr (.inr (.inl ⟨v, rfl, rfl⟩))
  | reset => cases h; exact .inr (.inr (.inr ⟨rfl, rfl⟩))

/-- What holds at reset and is kept by every step and every host move holds of every state a run reaches. -/
theorem Reachable.keeps {P : State → Prop} (hr : P State.reset) (hs : ∀ s t, P s → step s = .next t → P t)
    (hm : ∀ m s t, P s → hostMove m s = some t → P t) {s : State} (h : Reachable s) : P s := by
  induction h with
  | reset => exact hr
  | event e _ he ih =>
    cases e with
    | blockStep => exact hs _ _ ih (event_blockStep.1 he)
    | host m => exact hm _ _ _ ih he

/-- In a fair run, what holds of a block that can step, and is kept until its next step, holds at that step. -/
theorem IsFair.next_step {es : Nat → Option Event} {ss : Nat → State} (hf : IsFair es ss) {P : State → Prop}
    (hc : ∀ s, P s → s.canStep = true) {k : Nat} (hk : P (ss k))
    (hkeep : ∀ j, k ≤ j → P (ss j) → es j ≠ some .blockStep → P (ss (j + 1))) :
    ∃ j, k ≤ j ∧ es j = some .blockStep ∧ P (ss j) := by
  obtain ⟨j, hj, hend⟩ := hf k (hc _ hk)
  by_contra hno
  have all (d : Nat) : P (ss (k + d)) := by
    induction d with
    | zero => exact hk
    | succ d ih => exact hkeep (k + d) (by omega) ih fun e => hno ⟨k + d, by omega, e, ih⟩
  have hP : P (ss j) := by simpa [Nat.add_sub_cancel' hj] using all (j - k)
  rcases hend with e | e
  · exact hno ⟨j, hj, e, hP⟩
  · exact absurd (hc _ hP) (by simp [e])

end Sys2Proof.Machine
end

