-- ==== Sys2Proof/Laws/PerInstr.lean ====
section
/-! SUPPORT. Statements for all instructions, made one instruction at a time. -/

namespace Sys2Proof.Laws.RoundTrip

/-- Decoding what the encoder writes gives a well-formed instruction back. -/
def Statement (i : Instr) : Prop := i.wellFormed = true → decode (encode i) = .ok i

theorem block55 (len : Length) : Statement (.block55 len) := fun _ => by
  show decodeRecord (0x55#8 :: _ :: _ :: []) = _
  rw [decodeRecord_block rfl, assembleLength_extract]; rfl

theorem blockAA (len : Length) : Statement (.blockAA len) := fun _ => by
  show decodeRecord (0xAA#8 :: _ :: _ :: []) = _
  rw [decodeRecord_block rfl, assembleLength_extract]; rfl

theorem terminator (id : Byte) : Statement (.terminator id) := fun h =>
  decodeRecord_terminator (isBlockId_eq_false.2 (by simpa [Instr.wellFormed] using h)) []

theorem encodeBit (arg : Nat) : Statement (.encodeBit arg) := fun _ => rfl
theorem encodeByte (arg : Nat) : Statement (.encodeByte arg) := fun _ => rfl
theorem encodeSilence (arg : Nat) : Statement (.encodeSilence arg) := fun _ => rfl
theorem fileSync (arg : Nat) : Statement (.fileSync arg) := fun _ => rfl
theorem blockSync (arg : Nat) : Statement (.blockSync arg) := fun _ => rfl
theorem wavHeader (arg : Nat) : Statement (.wavHeader arg) := fun _ => rfl
theorem convert (arg : Nat) : Statement (.convert arg) := fun _ => rfl

end Sys2Proof.Laws.RoundTrip
end

