-- ==== Sys2Proof/Laws/Run.lean ====
section
/-! SUPPORT. Runs of several steps. -/

namespace Sys2Proof.Machine

@[simp] theorem steps_zero (s : State) : steps 0 s = .next s := rfl

theorem steps_succ {s t : State} (k : Nat) (h : step s = .next t) : steps (k + 1) s = steps k t := by
  rw [steps, h]

/-- A block with no command issued stays as it is for any number of steps (R137, R146). -/
theorem steps_waits {s : State} (k : Nat) (hq : s.phase.quiescent = true) (hi : s.issued = false) :
    steps k s = .next s := by
  induction k with
  | zero => rfl
  | succ k ih => rw [steps_succ k (step_waits hq hi), ih]

theorem core_run_next {M : Host.Core} {s t : M.State} (k : Nat) (h : M.step s = .next t) : M.run (k + 1) s = M.run k t := by
  rw [Host.Core.run, h]

theorem core_run_fault {M : Host.Core} {s : M.State} {r : M.Fault} (k : Nat) (h : M.step s = .fault r) :
    M.run (k + 1) s = .fault r := by
  rw [Host.Core.run, h]

theorem core_run_refused {M : Host.Core} {s : M.State} {r : M.Refusal} (k : Nat) (h : M.step s = .refused r) :
    M.run (k + 1) s = .refused r := by
  rw [Host.Core.run, h]

/-- The runs of this model are the host's runs. -/
theorem steps_eq_core_run (k : Nat) (s : State) : steps k s = Host.Core.run Sys2Proof.core k s := by
  induction k generalizing s with
  | zero => rfl
  | succ k ih =>
    rw [steps]
    rcases h : step s with t | r | r
    · exact (ih t).trans (core_run_next (M := Sys2Proof.core) k h).symm
    · exact (core_run_fault (M := Sys2Proof.core) k h).symm
    · exact (core_run_refused (M := Sys2Proof.core) k h).symm

end Sys2Proof.Machine
end

