-- ==== Sys2Proof/Tests/Slice0.lean ====
section
/-! SUPPORT. The model's own tests. The expected values are those of spec/95_test_vectors.md (the vector is named at each
test) or are written out from the rule named there. After them, for every statement with hypotheses, a witness that meets
all of them. -/

namespace Sys2Proof.Tests

open Sys2Proof Sys2Proof.Machine

/-! ### Helpers -/

/-- What a field function sees in the next state. -/
def seen {α : Type} (f : State → α) (o : Host.Outcome State Fault Refusal) : Option α :=
  match o with
  | .next t => some (f t)
  | .fault _ => none
  | .refused _ => none

/-- After reset, with a command issued. -/
def issuedState (op : Byte) (arg : Nat) : State := { State.reset with cmd := ⟨op, arg⟩, issued := true }

/-- A conversion of these bytes about to examine the record at `c`. -/
def scanState (bytes : List Byte) (c : Nat) : State :=
  { State.reset.loadInput bytes with phase := .scan, cur := ⟨c, true⟩ }

/-- After reset but for PHASE. -/
def phaseState (p : Phase) : State := { State.reset with phase := p }

/-- 248 k times, then 8 k times. -/
def pair (k : Nat) : List Byte := List.replicate k 248#8 ++ List.replicate k 8#8

/-! ### WellFormed smoke: each ill-formed term is refused (R59) -/

theorem test_terminator_55_ill_formed : (Instr.terminator 0x55#8).wellFormed = false := by decide
theorem test_terminator_AA_ill_formed : (Instr.terminator 0xAA#8).wellFormed = false := by decide
theorem test_terminator_00_well_formed : (Instr.terminator 0x00#8).wellFormed = true := by decide
theorem test_record_over_65535_ill_formed : (Record.mk 0x55#8 (List.replicate 65536 0#8)).wellFormed = false := by
  unfold Record.wellFormed
  rw [List.length_replicate]
  decide
theorem test_record_id_ill_formed : (Record.mk 0x54#8 []).wellFormed = false := by decide

/-! ### Decoding of words written out from R56, R57, R59 and R71 -/

theorem test_decode_block55 : decode (.stream [0x55#8, 0x00#8, 0x01#8]) = .ok (.block55 256#16) := by decide
theorem test_decode_blockAA : decode (.stream [0xAA#8, 0x01#8, 0x02#8, 0x77#8]) = .ok (.blockAA 513#16) := by decide
theorem test_decode_terminator : decode (.stream [0x54#8, 0x01#8]) = .ok (.terminator 0x54#8) := by decide
theorem test_decode_encodeBit : decode (.command ⟨0x01#8, 1⟩) = .ok (.encodeBit 1) := by decide
theorem test_decode_encodeByte : decode (.command ⟨0x02#8, 0xD3⟩) = .ok (.encodeByte 211) := by decide
theorem test_decode_encodeSilence : decode (.command ⟨0x03#8, 2000⟩) = .ok (.encodeSilence 2000) := by decide
theorem test_decode_fileSync : decode (.command ⟨0x04#8, 7⟩) = .ok (.fileSync 7) := by decide
theorem test_decode_blockSync : decode (.command ⟨0x05#8, 0⟩) = .ok (.blockSync 0) := by decide
theorem test_decode_wavHeader : decode (.command ⟨0x06#8, 48056⟩) = .ok (.wavHeader 48056) := by decide
theorem test_decode_convert : decode (.command ⟨0x07#8, 0⟩) = .ok (.convert 0) := by decide
theorem test_decode_unassigned_00 : decode (.command ⟨0x00#8, 0⟩) = .error (.unassignedOp 0x00#8) := by decide
theorem test_decode_unassigned_FF : decode (.command ⟨0xFF#8, 3⟩) = .error (.unassignedOp 0xFF#8) := by decide
theorem test_decode_no_bytes : decode (.stream []) = .error .endOfStream := by decide
theorem test_decode_cut_header : decode (.stream [0x55#8, 0x01#8]) = .error (.headerCut 0x55#8) := by decide

/-! ### Table words, and the first step after reset -/

theorem test_table_words :
    [0x55, 0xAA, 0x00, 0x01, 0x02, 0x03, 0x04, 0x05, 0x06, 0x07].map (decodeTableWord 8) =
      [some (.block55 0#16), some (.blockAA 0#16), some (.terminator 0#8), some (.encodeBit 0), some (.encodeByte 0),
       some (.encodeSilence 0), some (.fileSync 0), some (.blockSync 0), some (.wavHeader 0), some (.convert 0)] := by
  decide
theorem test_table_word_with_operands :
    decodeTableWord 24 0x010255 = some (.block55 0x0102#16) ∧ decodeTableWord 16 0xD302 = some (.encodeByte 0xD3) := by
  decide
theorem test_first_step_phases :
    [0x55, 0xAA, 0x00, 0x01, 0x02, 0x03, 0x04, 0x05, 0x06, 0x07].map
        (fun w => seen State.phase (step (State.reset.withFetchWord 8 w))) =
      [some .scan, some .scan, some .tail, some .done, some .done, some .done, some .done, some .done, some .done,
       some .init] := by
  decide
theorem test_first_step_block_with_payload :
    seen (fun t => (t.id.value, t.len.value, t.cur.value)) (step (State.reset.withFetchWord 32 0x070001AA)) =
      some (0xAA#8, 1#16, 7) := by
  decide

/-! ### The commands -/

/-- V-B1, V-B2. -/
theorem test_encodeBit_pulses : seen State.out (exec (.encodeBit 0) State.reset) = some (pair 8) ∧
    seen State.out (exec (.encodeBit 1) State.reset) = some (pair 3) := by decide
/-- V-B3. -/
theorem test_encodeBit_2_is_an_error : seen State.outcome (step (issuedState 0x01#8 2)) =
    some (.error, .invalidOperand, []) := by decide
/-- V-Y9. -/
theorem test_encodeByte_D3 : seen State.out (exec (.encodeByte 0xD3) State.reset) =
    some (pair 3 ++ pair 3 ++ pair 8 ++ pair 3 ++ pair 8 ++ pair 8 ++ pair 3 ++ pair 3) := by decide
/-- V-Y12, V-Y13. -/
theorem test_encodeByte_bound : seen State.phase (exec (.encodeByte 255) State.reset) = some .done ∧
    seen State.outcome (exec (.encodeByte 256) State.reset) = some (.error, .invalidByte, []) := by decide
/-- V-S1, V-S2. -/
theorem test_encodeSilence_counts : seen State.outcome (exec (.encodeSilence 0) State.reset) = some (.done, .none, []) ∧
    seen State.out (exec (.encodeSilence 1) State.reset) = some [128#8] := by decide
/-- V-F2: the first 22 samples, whatever the operand. -/
theorem test_fileSync_begins : seen (fun t => t.out.take 22) (exec (.fileSync 7) State.reset) =
    some (pair 3 ++ pair 8) := by decide
/-- V-K1: the first 22 samples. -/
theorem test_blockSync_begins : seen (fun t => t.out.take 22) (exec (.blockSync 0) State.reset) =
    some (pair 3 ++ pair 3 ++ pair 3 ++ [248#8, 248#8, 248#8, 8#8]) := by decide
/-- V-H2. -/
theorem test_wavHeader_48056 : seen State.out (exec (.wavHeader 48056) State.reset) = some
    [0x52#8, 0x49#8, 0x46#8, 0x46#8, 0xDC#8, 0xBB#8, 0x00#8, 0x00#8, 0x57#8, 0x41#8, 0x56#8, 0x45#8, 0x66#8, 0x6D#8,
     0x74#8, 0x20#8, 0x10#8, 0x00#8, 0x00#8, 0x00#8, 0x01#8, 0x00#8, 0x01#8, 0x00#8, 0x40#8, 0x1F#8, 0x00#8, 0x00#8,
     0x40#8, 0x1F#8, 0x00#8, 0x00#8, 0x01#8, 0x00#8, 0x08#8, 0x00#8, 0x64#8, 0x61#8, 0x74#8, 0x61#8, 0xB8#8, 0xBB#8,
     0x00#8, 0x00#8] := by decide
/-- V-H4, V-H5. -/
theorem test_wavHeader_bound :
    seen (fun t => t.out.drop 40) (exec (.wavHeader 4294967259) State.reset) = some [0xDB#8, 0xFF#8, 0xFF#8, 0xFF#8] ∧
    seen State.outcome (exec (.wavHeader 4294967260) State.reset) = some (.error, .sizeOverflow, []) := by decide
/-- R91. -/
theorem test_convert_starts : seen State.phase (step (issuedState 0x07#8 0)) = some .init := by decide
/-- V-U2. -/
theorem test_unassigned_command : seen State.outcome (step (issuedState 0x08#8 0)) =
    some (.error, .unknownCommand, []) := by decide
/-- 95_test_vectors.md P5: STATUS after ENCODE_BIT 2 and after the unassigned command. -/
theorem test_status_after_errors : seen State.status (step (issuedState 0x01#8 2)) = some 0x27#8 ∧
    seen State.status (step (issuedState 0x09#8 0)) = some 0x2F#8 := by decide

/-! ### The records -/

/-- P2: the record at 3 ends at 7, and its payload byte 0x00 is eight long pairs. -/
theorem test_block55_of_P2 :
    seen (fun t => (t.id, t.len, t.cur, t.phase))
      (step (scanState [0#8, 0#8, 0#8, 0x55#8, 1#8, 0#8, 0#8] 3)) =
      some (⟨0x55#8, true⟩, ⟨1#16, true⟩, ⟨7, true⟩, .scan) := by decide
/-- P4: STATUS = 0x17 and no result. -/
theorem test_block55_truncated_of_P4 :
    seen (fun t => (t.status, t.out)) (step (scanState [0#8, 0#8, 0#8, 0x55#8, 5#8, 0#8, 1#8, 2#8, 3#8] 3)) =
      some (0x17#8, []) := by decide
/-- V-C13, the payload behind the 4842 samples of the block sync. -/
theorem test_blockAA_payload :
    seen State.out (exec (.blockAA 1#16) (scanState [0#8, 0#8, 0#8, 0xAA#8, 1#8, 0#8, 0#8] 3)) =
      some (blockSyncPulses ++ (bytePulses 0x00#8 ++ [])) := by rfl
/-- V-C19: one byte short. -/
theorem test_blockAA_truncated : seen State.err (exec (.blockAA 2#16)
    (scanState [0#8, 0#8, 0#8, 0xAA#8, 2#8, 0#8, 0#8] 3)) = some .truncatedInput := by decide
/-- V-C5: a terminator as the first record. -/
theorem test_terminator_of_C5 : seen (fun t => (t.phase, t.err, t.out, t.id))
    (step (scanState [0#8, 0#8, 0#8, 0#8, 1#8, 0#8, 0#8] 3)) = some (.tail, .none, [], ⟨0#8, true⟩) := by decide
/-- P6: a record in the last 3 bytes is not examined. -/
theorem test_scan_guard_of_P6 : seen (fun t => (t.phase, t.id.held, t.cur.value))
    (step (scanState [0#8, 0#8, 0#8, 0x55#8, 0#8, 0#8] 3)) = some (.tail, false, 3) := by decide

/-! ### The host's side and the listing -/

theorem test_input_is_canonical : (State.reset.loadInput [7#8, 0#8, 9#8]).input = [(0, 7#8), (2, 9#8)] ∧
    (State.reset.loadInput [7#8, 0#8, 9#8]).inBytes = [7#8, 0#8, 9#8] := by decide
theorem test_no_load_while_busy : hostMove (.loadInput []) (phaseState .scan) = none := by decide
theorem test_reset_keeps_no_result : (scanState [1#8] 3).restart.phase = .idle ∧
    (scanState [1#8] 3).restart.cur.contents = none := by decide
/-- The last lines of 95_test_vectors.md P3 and a command of P5 as text. -/
theorem test_listing_lines :
    parseLine "block 0xAA, [0xD3, 0xFF] ; c".toList = some (.directive (.block 0xAA#8 [0xD3#8, 0xFF#8])) ∧
    parseLine "ENCODE_BYTE 0x80".toList = some (.command ⟨0x02#8, 128⟩) ∧
    parseLine "lead".toList = some (.directive (.lead 0#8 0#8 0#8)) := by decide
/-- 95_test_vectors.md P4: the bytes of its listing. -/
theorem test_listing_bytes_of_P4 :
    listingBytes [.lead 0#8 0#8 0#8, .blockhdr 0x55#8 5#16, .db [1#8, 2#8, 3#8]] =
      [0#8, 0#8, 0#8, 0x55#8, 5#8, 0#8, 1#8, 2#8, 3#8] := by decide

/-! ### Witnesses: for every statement with hypotheses, a state and operands that meet all of them -/

/-- A state of the invariant, with an input loaded and CONVERT issued. -/
def readyState : State :=
  { State.reset.loadInput [0#8, 0#8, 0#8, 0x55#8, 1#8, 0#8, 0#8] with cmd := ⟨0x07#8, 0⟩, issued := true }

theorem readyState_inv : readyState.Inv := by
  refine ⟨by decide, by decide, fun _ => rfl, by decide, fun _ => rfl, ?_, ?_, ?_, ?_, ?_⟩ <;> exact fun h => absurd h (by decide)

theorem witness_EveryStepKeepsTheInvariant :
    readyState.Inv ∧ seen State.phase (step readyState) = some .init := ⟨readyState_inv, by decide⟩
theorem witness_EveryHostMoveKeepsTheInvariant :
    readyState.Inv ∧ (hostMove (.loadInput [1#8]) readyState).isSome = true ∧
      (hostMove (.issue ⟨0x07#8, 0⟩) readyState).isSome = true ∧ (hostMove .reset readyState).isSome = true :=
  ⟨readyState_inv, by decide, by decide, by decide⟩
theorem witness_EveryResultReadIsWhole :
    ∃ s out, Reachable s ∧ s.readOut = some out ∧ out = pair 3 :=
  ⟨_, _, .event .blockStep (.event (.host (.issue ⟨0x01#8, 1⟩)) .reset rfl) rfl, rfl, rfl⟩
theorem witness_DecodingAnEncodingGivesTheInstruction :
    (Instr.terminator 0x54#8).wellFormed = true ∧ (Instr.block55 0xFFFF#16).wellFormed = true := by decide
theorem witness_WhatDecodesIsSpelledOneWay :
    decode (.command ⟨0x07#8, 5⟩) = .ok (.convert 5) ∧ decode (.stream [0xAA#8, 1#8, 0#8, 9#8]) = .ok (.blockAA 1#16) := by
  decide
theorem witness_AcceptanceRunsTheDecodedCommand :
    (issuedState 0x02#8 5).phase.quiescent = true ∧ (issuedState 0x02#8 5).issued = true ∧
      decodeCommand (issuedState 0x02#8 5).cmd = .ok (.encodeByte 5) := by decide

/-- A record of one payload byte at 3. -/
def recordState : State := scanState [0#8, 0#8, 0#8, 0x55#8, 1#8, 0#8, 0#8] 3

theorem witness_ScanRunsTheDecodedRecord :
    recordState.phase = .scan ∧ recordState.cur.value + 3 < recordState.n ∧
      decodeRecord (recordState.inBytes.drop recordState.cur.value) = .ok (.block55 1#16) := by decide
theorem witness_UnassignedCommandRaisesUnknownCommand :
    (issuedState 0x00#8 0).phase.quiescent = true ∧ (issuedState 0x00#8 0).issued = true ∧
      (issuedState 0x00#8 0).cmd.op = 0x00#8 ∧ 0x08#8 ≤ (issuedState 0x08#8 0).cmd.op ∧
      0x08#8 ≤ (issuedState 0xFF#8 0).cmd.op := by decide
theorem witness_IdleBlockKeepsItsState :
    (phaseState .done).phase.quiescent = true ∧ (phaseState .done).issued = false := by decide
theorem witness_EncodeBitGivesOnePulsePair : ∃ a b c : Nat, a = 0 ∧ b = 1 ∧ 1 < c ∧ c = 2 := ⟨0, 1, 2, by decide⟩
theorem witness_EncodeByteGivesEightPulsePairs : ∃ a b : Nat, a ≤ 255 ∧ a = 255 ∧ 255 < b ∧ b = 256 :=
  ⟨255, 256, by decide⟩
theorem witness_PulsesTellTheirBitsApart :
    [true, false].flatMap bitPulses = [true, false].flatMap bitPulses ∧
      payloadPulses [0xD3#8] = payloadPulses [0xD3#8] := ⟨rfl, rfl⟩
theorem witness_WavHeaderGivesItsBytes :
    ∃ a b : Nat, a ≤ 4294967259 ∧ a = 4294967259 ∧ 4294967259 < b ∧ b = 4294967260 :=
  ⟨4294967259, 4294967260, by decide⟩
theorem witness_HeaderDeclaresItsSizes : ∃ count : Nat, count ≤ 4294967259 ∧ count = 4294967259 :=
  ⟨4294967259, by decide⟩
theorem witness_ConvertStartsAConversion :
    readyState.phase.quiescent = true ∧ readyState.issued = true ∧ readyState.cmd = ⟨0x07#8, 0⟩ := by decide
theorem witness_InitStepEmptiesTheBuffer : (phaseState .init).phase = .init := rfl
theorem witness_LeadInStepEmitsThePreamble :
    (phaseState .leadIn).phase = .leadIn ∧ (phaseState .leadIn).out = [] ∧
      seen (fun t => t.cur.value) (step (phaseState .leadIn)) = some 3 := by decide
theorem witness_ScanEndsWhereTheGuardFails :
    (scanState [0#8, 0#8, 0#8, 0x55#8, 0#8, 0#8] 3).phase = .scan ∧
      ¬ (scanState [0#8, 0#8, 0#8, 0x55#8, 0#8, 0#8] 3).cur.value + 3 < (scanState [0#8, 0#8, 0#8, 0x55#8, 0#8, 0#8] 3).n := by
  decide

/-- A terminator at 3 that the guard lets through. -/
def terminatorState : State := scanState [0#8, 0#8, 0#8, 0x54#8, 0#8, 0#8, 0#8] 3

theorem witness_TerminatorEndsTheScan :
    terminatorState.phase = .scan ∧ terminatorState.cur.value + 3 < terminatorState.n ∧
      terminatorState.byteAt terminatorState.cur.value = some 0x54#8 ∧ 0x54#8 ≠ 0x55#8 ∧ 0x54#8 ≠ 0xAA#8 := by decide
theorem witness_BlockRecordsEmitTheirPayload :
    recordState.cur.value + 3 + (1#16).toNat ≤ recordState.n ∧ recordState.cur.value + 3 + (0#16).toNat ≤ recordState.n := by
  decide
theorem witness_BlockRecordsAbortWhenTruncated : recordState.n < recordState.cur.value + 3 + (2#16).toNat := by decide
theorem witness_ScanConsumesACompleteRecord :
    recordState.phase = .scan ∧ recordState.cur.value + 3 < recordState.n ∧
      recordState.byteAt recordState.cur.value = some 0x55#8 ∧
      recordState.byteAt (recordState.cur.value + 1) = some 1#8 ∧
      recordState.byteAt (recordState.cur.value + 2) = some 0#8 ∧ 1 = (1#8).toNat + 256 * (0#8).toNat ∧
      recordState.cur.value + 3 + 1 ≤ recordState.n := by decide

/-- A record that declares one byte more than there is. -/
def cutState : State := scanState [0#8, 0#8, 0#8, 0xAA#8, 2#8, 0#8, 0#8] 3

theorem witness_ScanAbortsOnATruncatedRecord :
    cutState.phase = .scan ∧ cutState.cur.value + 3 < cutState.n ∧ cutState.byteAt cutState.cur.value = some 0xAA#8 ∧
      cutState.byteAt (cutState.cur.value + 1) = some 2#8 ∧ cutState.byteAt (cutState.cur.value + 2) = some 0#8 ∧
      2 = (2#8).toNat + 256 * (0#8).toNat ∧ cutState.n < cutState.cur.value + 3 + 2 := by decide
theorem witness_BothBlockIdsAreTreatedAlike :
    seen State.cur (exec (.block55 1#16) recordState) = some ⟨7, true⟩ ∧
      seen State.cur (exec (.blockAA 1#16) recordState) = some ⟨7, true⟩ := by decide
theorem witness_TailStepEmitsSilence : (phaseState .tail).phase = .tail := rfl

/-- FINAL with a buffer of a given length. -/
def finalState (count : Nat) : State := { phaseState .final with out := List.replicate count 8#8 }

theorem witness_FinalStepComposesTheContainer :
    (finalState 4294967259).phase = .final ∧ (finalState 4294967259).out.length ≤ 4294967259 ∧
      (finalState 4294967260).phase = .final ∧ 4294967259 < (finalState 4294967260).out.length := by
  refine ⟨rfl, ?_, rfl, ?_⟩ <;> unfold finalState <;> dsimp only <;> rw [List.length_replicate]
  decide
theorem witness_ConversionComputesTheReference :
    readyState.phase.quiescent = true ∧ readyState.issued = true ∧ readyState.cmd.op = 0x07#8 := by decide
/-- A run that is only the block's: it accepts ENCODE_BIT 1, and then waits. -/
def encodingRun : Nat → State
  | 0 => issuedState 0x01#8 1
  | _ + 1 => { issuedState 0x01#8 1 with out := pair 3, phase := .done, issued := false }

theorem witness_EveryConversionEnds :
    recordState.phase.busy = true ∧
      IsRun (fun _ => some .blockStep) encodingRun ∧ IsFair (fun _ => some .blockStep) encodingRun ∧
      (encodingRun 0).canStep = true ∧ ∀ j, 0 ≤ j → some Event.blockStep ≠ some (.host .reset) := by
  refine ⟨by decide, fun k => ?_, fun k _ => ⟨k, Nat.le_refl k, .inl rfl⟩, by decide, fun _ _ h => by cases h⟩
  cases k <;> rfl
theorem witness_OutcomeDependsOnTheInputOnly :
    let u : State := { readyState with out := [1#8], phase := .done, cmd := ⟨0x07#8, 9⟩ }
    readyState.phase.quiescent = true ∧ u.phase.quiescent = true ∧ readyState.issued = true ∧ u.issued = true ∧
      readyState.cmd.op = 0x07#8 ∧ u.cmd.op = 0x07#8 ∧ readyState.inBytes = u.inBytes ∧ readyState ≠ u := by decide

/-- Two records, the second of length 0. -/
def twoRecords : List Record := [⟨0xAA#8, [0xD3#8, 0xFF#8]⟩, ⟨0x55#8, []⟩]

theorem witness_RecordsBecomeTheSampleStream :
    (∀ r ∈ twoRecords, r.wellFormed = true) ∧ isBlockId 0x00#8 = false := by decide
theorem witness_EverySuccessHasTheGrammar : ∃ out, convert [0#8, 0#8, 0#8] = .ok out :=
  ⟨_, wavContainer_ok (samples := preamble ++ silence tailSilence) (by
    rw [List.length_append, preamble_length, silence_length]; decide)⟩
theorem witness_OutputMapHasItsOffsets : ∃ out, convert [0#8, 0#8, 0#8] = .ok out :=
  witness_EverySuccessHasTheGrammar
/-- The scan of a terminator, of one to three bytes, of a last record with a payload, and of no lead-in. -/
theorem witness_SampleCountHasItsClosedForm :
    (∃ out, convert [0#8, 0#8, 0#8] = .ok out) ∧ Accepts [0#8, 0#8, 0#8] [] ∧ Accepts [7#8] [] ∧
      Accepts [1#8, 2#8, 3#8, 0x55#8, 1#8, 0#8, 9#8] [⟨0x55#8, [9#8]⟩] ∧
      Accepts [1#8, 2#8, 3#8, 0xAA#8, 0#8, 0#8, 0x55#8, 0#8, 0#8] [⟨0xAA#8, []⟩] ∧
      Accepts [1#8, 2#8, 3#8, 0xAA#8, 0#8, 0#8, 0x54#8, 0#8, 0#8, 0#8] [⟨0xAA#8, []⟩] := by
  refine ⟨witness_EverySuccessHasTheGrammar,
    ⟨by decide, .inl ⟨[0#8, 0#8, 0#8], [], rfl, rfl, .inr ⟨by decide, fun _ r h => by cases h⟩⟩⟩,
    ⟨by decide, .inr ⟨by decide, rfl⟩⟩,
    ⟨by decide, .inl ⟨[1#8, 2#8, 3#8], [], rfl, rfl, .inr ⟨by decide, fun _ r h => by cases h; decide⟩⟩⟩,
    ⟨by decide, .inl ⟨[1#8, 2#8, 3#8], [0x55#8, 0#8, 0#8], rfl, rfl, .inr ⟨by decide, fun h => by cases h⟩⟩⟩,
    ⟨by decide, .inl ⟨[1#8, 2#8, 3#8], [0x54#8, 0#8, 0#8, 0#8], rfl, rfl, .inl ⟨_, _, rfl, by decide⟩⟩⟩⟩
theorem witness_NothingAfterATerminatorCounts :
    (∀ r ∈ [Record.mk 0x55#8 [0xFF#8]], r.wellFormed = true) ∧ isBlockId 0x99#8 = false ∧
      ∀ r, [Record.mk 0x55#8 [0xFF#8]].getLast? = some r → r.payload ≠ [] := by
  refine ⟨by decide, by decide, fun r h => ?_⟩
  cases h
  decide
theorem witness_TrailingBytesAreIgnored :
    (∀ r ∈ twoRecords, r.wellFormed = true) ∧ 1 ≤ [0x55#8, 0#8, 0#8].length ∧ [0x55#8, 0#8, 0#8].length ≤ 3 := by decide
theorem witness_TruncatedInputGivesNoResult :
    (∀ r ∈ twoRecords, r.wellFormed = true) ∧ isBlockId 0x55#8 = true ∧ 1 ≤ [1#8].length ∧ [1#8].length < (2#16).toNat := by
  decide
theorem witness_ShortInputsGiveTheEmptyStream : [0#8, 0#8, 0#8, 0x55#8, 0#8, 0#8].length ≤ 6 := by decide
theorem witness_PhaseOnlyMovesForward :
    seen State.phase (step recordState) = some .scan ∧ recordState.phase.busy = true ∧
      seen State.phase (step readyState) = some .init ∧ readyState.phase.quiescent = true ∧ readyState.issued = true ∧
      (phaseState .done).phase.quiescent = true ∧ (phaseState .done).issued = false ∧
      seen State.phase (step (phaseState .done)) = some .done := by decide
theorem witness_CommandsLeaveTheRestUnchanged :
    (Instr.encodeBit 2).isRecord = false ∧ seen State.phase (exec (.encodeBit 2) recordState) = some .error := by decide
theorem witness_NoStepWritesWhatIsTheHosts : seen State.n (step recordState) = some 7 := by decide
theorem witness_LatchesAreWrittenByLeadInAndScanOnly :
    seen State.phase (step recordState) = some .scan ∧ seen State.phase (step terminatorState) = some .tail ∧
      seen State.phase (step (phaseState .leadIn)) = some .scan ∧ seen State.phase (step readyState) = some .init := by decide
theorem witness_BufferGrowsAtItsEnd :
    seen State.phase (step recordState) = some .scan ∧ seen State.phase (step (phaseState .init)) = some .leadIn ∧
      seen State.phase (step (finalState 1)) = some .done := by decide
theorem witness_EveryErrorHasItsCause :
    seen State.phase (step cutState) = some .error ∧ cutState.phase.busy = true ∧
      seen State.phase (step (issuedState 0x02#8 256)) = some .error ∧ (issuedState 0x02#8 256).issued = true := by decide
theorem witness_OutputIsReadInDoneOnly :
    (phaseState .done).phase = .done ∧ (phaseState .scan).phase ≠ .done ∧
      ({ State.reset with phase := .error, err := .invalidByte } : State).Inv := by
  refine ⟨rfl, by decide, by decide, by decide, by decide, by decide, fun _ => rfl, ?_, ?_, ?_, ?_, ?_⟩ <;>
    exact fun h => absurd h (by decide)
theorem witness_BusyBlockIsLeftAlone :
    recordState.phase.busy = true ∧ HostMove.writeStatus 0#8 ≠ .reset ∧
      (hostMove (.writeStatus 0#8) recordState).isSome = true := by decide
theorem witness_CommandsAreIssuedWhenQuiescent :
    readyState.phase.quiescent = true ∧ readyState.inputLoaded = true ∧ recordState.phase.busy = true ∧
      State.reset.inputLoaded = false := by decide
theorem witness_LoadedBytesAreRead :
    readyState.phase.quiescent = true ∧ (phaseState .error).phase.quiescent = true ∧
      (phaseState .init).phase.busy = true ∧ (phaseState .final).phase.busy = true := by decide
theorem witness_InstancesShareNothing :
    (System.events [(0, .blockStep), (1, .host .reset)] ⟨[readyState, recordState]⟩).isSome = true ∧
      (System.mk [readyState, recordState]).blocks[1]? = some recordState := by decide

end Sys2Proof.Tests
end

section
/-! SUPPORT. The reference function case by case: what one pass of the loop of R104 does, and the outcome it leads to. -/

namespace Sys2Proof.Machine

/-! ### One pass of the loop -/

section
variable {bytes : List Byte} {c : Nat}

theorem scanFrom_ends (fuel : Nat) (xs : List Byte) (h : ¬ c + 3 < bytes.length) :
    scanFrom bytes fuel c xs = .ok xs := by
  cases fuel with
  | zero => rfl
  | succ fuel => rw [scanFrom, if_neg h]

theorem scanFrom_terminator (fuel : Nat) (xs : List Byte) (hb : isBlockId (bytes.getD c 0#8) = false) :
    scanFrom bytes fuel c xs = .ok xs := by
  cases fuel with
  | zero => rfl
  | succ fuel => rw [scanFrom, hb]; simp

theorem scanFrom_truncates {l : Nat} (fuel : Nat) (xs : List Byte) (h : c + 3 < bytes.length)
    (hb : isBlockId (bytes.getD c 0#8) = true)
    (hl : l = (bytes.getD (c + 1) 0#8).toNat + 256 * (bytes.getD (c + 2) 0#8).toNat)
    (ht : bytes.length < c + 3 + l) :
    scanFrom bytes (fuel + 1) c xs = .error .truncatedInput := by
  subst hl
  rw [scanFrom, if_pos h, if_pos hb]
  exact if_pos ht

theorem scanFrom_consumes {l : Nat} (fuel : Nat) (xs : List Byte) (h : c + 3 < bytes.length)
    (hb : isBlockId (bytes.getD c 0#8) = true)
    (hl : l = (bytes.getD (c + 1) 0#8).toNat + 256 * (bytes.getD (c + 2) 0#8).toNat)
    (hc : c + 3 + l ≤ bytes.length) :
    scanFrom bytes (fuel + 1) c xs =
      scanFrom bytes fuel (c + 3 + l)
        (xs ++ (blockSyncPulses ++ payloadPulses ((bytes.drop (c + 3)).take l))) := by
  subst hl
  rw [scanFrom, if_pos h, if_pos hb]
  exact if_neg (Nat.not_lt.2 hc)

end

/-! ### From the scan's end to the outcome -/

/-- What TAIL and FINAL make of the samples the scan ends with (R101, R102). -/
def closeStream (xs : List Byte) : Except Err (List Byte) := wavContainer (xs ++ silence tailSilence)

/-- The outcome of a command with this result (R131, R156). -/
def resultOutcome : Except Err (List Byte) → Phase × Err × List Byte
  | .ok out => (.done, .none, out)
  | .error e => (.error, e, [])

theorem convertOutcome_eq (bytes : List Byte) :
    convertOutcome bytes =
      resultOutcome ((scanFrom bytes bytes.length leadInBytes preamble).bind closeStream) := by
  have h : convert bytes = (scanFrom bytes bytes.length leadInBytes preamble).bind closeStream := by
    rw [convert]
    cases scanFrom bytes bytes.length leadInBytes preamble <;> rfl
  rw [convertOutcome, h]
  cases (scanFrom bytes bytes.length leadInBytes preamble).bind closeStream <;> rfl

end Sys2Proof.Machine
end

section
/-! SUPPORT. What the steps of a conversion leave, in the terms of the reference function. -/

namespace Sys2Proof.Machine

theorem State.inBytes_getD {s : State} {a : Nat} (h : a < s.n) :
    s.inBytes.getD a 0#8 = Memory.read s.input a := by
  rw [List.getD_eq_getElem?_getD, State.inBytes_getElem?, State.byteAt_eq_some.2 ⟨h, rfl⟩, Option.getD_some]

theorem recordEnd_eq (c : Nat) (len : Length) : recordEnd c len = c + 3 + len.toNat := rfl

/-! ### The record at CUR, by the bytes of IN -/

/-- Where the guard lets a data id through, the length is that of the two bytes after it (R96). -/
theorem scanStep_data {s : State} (h : s.cur.value + 3 < s.n)
    (hb : isBlockId (s.inBytes.getD s.cur.value 0#8) = true) :
    ∃ id len, len.toNat = (s.inBytes.getD (s.cur.value + 1) 0#8).toNat +
        256 * (s.inBytes.getD (s.cur.value + 2) 0#8).toNat ∧ scanStep s = runBlock id len s := by
  rw [State.inBytes_getD (by omega)] at hb
  refine ⟨_, _, ?_, scanStep_block h hb⟩
  rw [assembleLength_toNat, State.inBytes_getD (by omega), State.inBytes_getD (by omega)]

theorem scanStep_nonData {s : State} (h : s.cur.value + 3 < s.n)
    (hb : isBlockId (s.inBytes.getD s.cur.value 0#8) = false) :
    ∃ id, scanStep s = .next ((s.setId id).setPhase .tail) := by
  rw [State.inBytes_getD (by omega)] at hb
  exact ⟨_, scanStep_terminator h hb⟩

/-! ### A consumed record -/

section
variable (id : Byte) (len : Length) (s : State)

@[simp] theorem consumed_inBytes : (consumed id len s).inBytes = s.inBytes := rfl
@[simp] theorem consumed_n : (consumed id len s).n = s.n := rfl
@[simp] theorem consumed_cur : (consumed id len s).cur = Latch.write (recordEnd s.cur.value len) := rfl
@[simp] theorem consumed_phase : (consumed id len s).phase = s.phase := rfl
@[simp] theorem consumed_err : (consumed id len s).err = s.err := rfl
@[simp] theorem consumed_issued : (consumed id len s).issued = s.issued := rfl

end

/-- A record within IN appends the block sync and the pulses of its slice of the input (R98, R99). -/
theorem consumed_out {id : Byte} {len : Length} {s : State} (h : recordEnd s.cur.value len ≤ s.n) :
    (consumed id len s).out =
      s.out ++ (blockSyncPulses ++ payloadPulses ((s.inBytes.drop (s.cur.value + 3)).take len.toNat)) := by
  rw [State.inBytes_slice s (s.cur.value + 3) len.toNat h]
  rfl

/-! ### The FINAL step -/

theorem finalStep_outcome {s : State} (he : s.err = .none) :
    (finalStep s).outcome = resultOutcome (wavContainer s.out) := by
  rcases finalStep_cases s with ⟨hl, e⟩ | ⟨hl, e⟩
  · rw [e, wavContainer_ok hl]
    simp [State.outcome, resultOutcome, he]
  · rw [e, wavContainer_error hl]
    rfl

theorem finalStep_quiescent (s : State) : (finalStep s).phase.quiescent = true := by
  rcases finalStep_cases s with ⟨-, e⟩ | ⟨-, e⟩ <;> rw [e] <;> rfl

theorem finalStep_issued (s : State) : (finalStep s).issued = s.issued := by
  rcases finalStep_cases s with ⟨-, e⟩ | ⟨-, e⟩ <;> rw [e] <;> rfl

/-! ### Acceptance of CONVERT -/

theorem decodeCommand_convert {c : Command} (h : c.op = 0x07#8) : decodeCommand c = .ok (.convert c.arg) := by
  obtain ⟨op, arg⟩ := c
  obtain rfl : op = 0x07#8 := h
  rfl

theorem acceptStep_convert {s : State} (hc : s.cmd.op = 0x07#8) :
    acceptStep s = .next (s.takeCommand.clearErr.setPhase .init) := by
  rw [acceptStep_ok (decodeCommand_convert hc)]
  rfl

end Sys2Proof.Machine
end

section
/-! SUPPORT. The conversion against the reference function: from each phase on, last phase first, the block comes to rest
with the outcome that the reference function has for what is left to do. -/

namespace Sys2Proof.Machine

/-- After `k` steps the block waits with no command issued, and shows this outcome. -/
def ComesToRest (k : Nat) (s : State) (o : Phase × Err × List Byte) : Prop :=
  ∃ t, steps k s = .next t ∧ t.phase.quiescent = true ∧ t.issued = false ∧ t.outcome = o

/-- A block at rest stays at rest, so a bound on the steps is as good as their number (R146). -/
theorem ComesToRest.of_rest {s : State} (k : Nat) (hq : s.phase.quiescent = true) (hi : s.issued = false) :
    ComesToRest k s s.outcome :=
  ⟨s, steps_waits k hq hi, hq, hi, rfl⟩

theorem ComesToRest.of_step {s t : State} {k : Nat} {o : Phase × Err × List Byte} (h : step s = .next t)
    (ht : ComesToRest k t o) : ComesToRest (k + 1) s o := by
  obtain ⟨v, hv, rest⟩ := ht
  exact ⟨v, by rw [steps_succ k h, hv], rest⟩

/-- From FINAL on (R102). -/
theorem comesToRest_final {s : State} (k : Nat) (hp : s.phase = .final) (hi : s.issued = false)
    (he : s.err = .none) : ComesToRest (k + 1) s (resultOutcome (wavContainer s.out)) := by
  refine .of_step (step_final hp) ?_
  rw [← finalStep_outcome he]
  exact .of_rest k (finalStep_quiescent s) ((finalStep_issued s).trans hi)

/-- From TAIL on (R101). -/
theorem comesToRest_tail {s : State} (k : Nat) (hp : s.phase = .tail) (hi : s.issued = false)
    (he : s.err = .none) : ComesToRest (k + 2) s (resultOutcome (closeStream s.out)) :=
  .of_step (step_tail hp) (comesToRest_final (s := tailStep s) k rfl hi he)

/-- From SCAN on where the guard does not hold (R94). -/
theorem comesToRest_scan_ends (k : Nat) {s : State} (fuel : Nat) (hp : s.phase = .scan) (hi : s.issued = false)
    (he : s.err = .none) (hg : ¬ s.cur.value + 3 < s.n) :
    ComesToRest (k + 3) s
      (resultOutcome ((scanFrom s.inBytes fuel s.cur.value s.out).bind closeStream)) := by
  rw [scanFrom_ends fuel s.out (by simpa using hg)]
  exact .of_step ((step_scan hp).trans (scanStep_ends hg))
    (comesToRest_tail (s := s.setPhase .tail) k rfl hi he)

/-- From SCAN on (R94 to R100), where CUR lets the guard hold at most `k` times more: the loop of the reference function
with as many passes or more. -/
theorem comesToRest_scan (k : Nat) {s : State} {fuel : Nat} (hp : s.phase = .scan) (hi : s.issued = false)
    (he : s.err = .none) (hk : s.n ≤ s.cur.value + 3 + 3 * k) (hf : k ≤ fuel) :
    ComesToRest (k + 3) s
      (resultOutcome ((scanFrom s.inBytes fuel s.cur.value s.out).bind closeStream)) := by
  induction k generalizing s fuel with
  | zero => exact comesToRest_scan_ends 0 fuel hp hi he (by omega)
  | succ k ih =>
    by_cases hg : s.cur.value + 3 < s.n
    · obtain ⟨fuel, rfl⟩ : ∃ f, fuel = f + 1 := ⟨fuel - 1, by omega⟩
      have hg' : s.cur.value + 3 < s.inBytes.length := by simpa only [State.inBytes_length] using hg
      rcases hb : isBlockId (s.inBytes.getD s.cur.value 0#8) with _ | _
      · obtain ⟨id, hstep⟩ := scanStep_nonData hg hb
        rw [scanFrom_terminator (fuel + 1) s.out hb]
        exact .of_step ((step_scan hp).trans hstep)
          (comesToRest_tail (s := (s.setId id).setPhase .tail) (k + 1) rfl hi he)
      · obtain ⟨id, len, hlen, hstep⟩ := scanStep_data hg hb
        rcases runBlock_cases id len s with ⟨hl, hrun⟩ | ⟨hl, hrun⟩
        · rw [scanFrom_consumes fuel s.out hg' hb hlen (by rwa [State.inBytes_length]), ← consumed_out hl]
          refine .of_step ((step_scan hp).trans (hstep.trans hrun))
            (ih (s := consumed id len s) hp hi he ?_ (by omega))
          rw [consumed_n, consumed_cur, Latch.write_value, recordEnd_eq]
          omega
        · rw [scanFrom_truncates fuel s.out hg' hb hlen (by rwa [State.inBytes_length])]
          exact .of_step ((step_scan hp).trans (hstep.trans hrun))
            (.of_rest (s := truncated id len s) (k + 3) rfl hi)
    · exact comesToRest_scan_ends (k + 1) fuel hp hi he hg

/-- From INIT on (R92, R93): the scan begins behind the lead-in with the preamble as OUT, and maxRecords passes are
enough (R105). -/
theorem comesToRest_init {s : State} (hp : s.phase = .init) (hi : s.issued = false) (he : s.err = .none) :
    ComesToRest (maxRecords s.n + 5) s (convertOutcome s.inBytes) := by
  have hscan := comesToRest_scan (maxRecords s.n) (s := leadInStep (initStep s)) (fuel := s.inBytes.length) rfl hi he
    (by show s.n ≤ 3 + 3 + 3 * maxRecords s.n; unfold maxRecords; omega)
    (by rw [State.inBytes_length]; unfold maxRecords; omega)
  have hout : (leadInStep (initStep s)).out = preamble := rfl
  rw [hout] at hscan
  rw [convertOutcome_eq]
  exact .of_step (step_init hp) (.of_step (step_leadIn rfl) hscan)

/-- From the acceptance of CONVERT on (R91): the whole conversion, whatever else the block held (R104). -/
theorem comesToRest_convert {s : State} (hq : s.phase.quiescent = true) (hi : s.issued = true)
    (hc : s.cmd.op = 0x07#8) : ComesToRest (maxRecords s.n + 6) s (convertOutcome s.inBytes) :=
  .of_step ((step_accepts hq hi).trans (acceptStep_convert hc))
    (comesToRest_init (s := s.takeCommand.clearErr.setPhase .init) rfl rfl rfl)

end Sys2Proof.Machine
end

section
/-! SUPPORT. An event of one block of a system, seen from every block. -/

namespace Sys2Proof.Machine

/-- An event of block `j` is one of its own state, and replaces that state alone. -/
theorem System.event_eq_some {j : Nat} {e : Event} {y z : System} (h : System.event j e y = some z) :
    ∃ s t, y.blocks[j]? = some s ∧ Machine.event e s = some t ∧ z.blocks = y.blocks.set j t := by
  unfold System.event at h
  split at h
  · cases h
  · next s hs =>
    obtain ⟨t, ht, rfl⟩ := Option.map_eq_some_iff.1 h
    exact ⟨s, t, hs, ht, rfl⟩

/-- The block an event belongs to makes it. -/
theorem System.event_same {k : Nat} {e : Event} {y z : System} {s : State} (h : System.event k e y = some z)
    (hs : y.blocks[k]? = some s) : ∃ t, Machine.event e s = some t ∧ z.blocks[k]? = some t := by
  obtain ⟨s', t, hs', ht, hz⟩ := System.event_eq_some h
  obtain rfl : s' = s := Option.some.inj (hs'.symm.trans hs)
  exact ⟨t, ht, by rw [hz, List.getElem?_set_self (List.getElem?_eq_some_iff.1 hs).1]⟩

/-- Every other block stays as it is. -/
theorem System.event_other {j k : Nat} {e : Event} {y z : System} (h : System.event j e y = some z) (hjk : j ≠ k) :
    z.blocks[k]? = y.blocks[k]? := by
  obtain ⟨_, _, _, _, hz⟩ := System.event_eq_some h
  rw [hz, List.getElem?_set_ne hjk]

end Sys2Proof.Machine
end

section
/-! The statements about what a block's runs depend on. -/

open Sys2Proof Sys2Proof.Machine

/-- Settles O39: both blocks come to rest within the number of steps that the length of their common input bounds, and the
one that ends first waits. -/
theorem outcomeDependsOnTheInputOnly : Obligations.OutcomeDependsOnTheInputOnly := by
  intro s u hqs hqu his hiu hcs hcu hin
  have hn : u.n = s.n := by rw [← State.inBytes_length, ← State.inBytes_length, hin]
  obtain ⟨t, hst, -, hti, hto⟩ := comesToRest_convert hqs his hcs
  obtain ⟨v, huv, -, hvi, hvo⟩ := comesToRest_convert hqu hiu hcu
  rw [hn] at huv
  rw [← hin] at hvo
  exact ⟨maxRecords s.n + 6, t, v, by omega, hst, huv, hti, hvi, hto, hvo⟩

/-- Settles O60, by induction on the run: an event of block `k` moves it as alone, any other event leaves it. -/
theorem instancesShareNothing : Obligations.InstancesShareNothing := by
  intro es
  induction es with
  | nil =>
    intro y z k s hrun hs
    cases hrun
    exact hs
  | cons je es ih =>
    intro y z k s hrun hs
    obtain ⟨j, e⟩ := je
    obtain ⟨y', hfirst, hrest⟩ := Option.bind_eq_some_iff.1 hrun
    by_cases hjk : j = k
    · subst hjk
      obtain ⟨t, ht, hs'⟩ := System.event_same hfirst hs
      rw [ih y' z j t hrest hs', List.filter_cons_of_pos (by simp), List.map_cons, events, ht, Option.bind_some]
    · rw [ih y' z k s hrest ((System.event_other hfirst hjk).trans hs), List.filter_cons_of_neg (by simpa using hjk)]

end

section
/-! SUPPORT. The sample stream and the results: what they are made of, and that they hold sample levels (R32, R69). -/

namespace Sys2Proof.Machine

/-- The preamble and the samples of whole records: what the scan has emitted (R69, R93, R98, R99). -/
def IsScanned (out : List Byte) : Prop :=
  ∃ rs : List Record, (∀ r ∈ rs, r.wellFormed = true) ∧ out = preamble ++ rs.flatMap recordSamples

/-- The whole sample stream of some records (R69). -/
def IsStream (out : List Byte) : Prop :=
  ∃ rs : List Record, (∀ r ∈ rs, r.wellFormed = true) ∧ out = sampleStream rs

theorem isScanned_preamble : IsScanned preamble := ⟨[], by simp, by simp⟩

/-- One more record keeps the samples those of whole records. -/
theorem IsScanned.append_record {out : List Byte} (h : IsScanned out) {r : Record} (hr : r.wellFormed = true) :
    IsScanned (out ++ recordSamples r) := by
  obtain ⟨rs, hrs, rfl⟩ := h
  refine ⟨rs ++ [r], fun x hx => ?_, by simp⟩
  rcases List.mem_append.1 hx with hx | hx
  · exact hrs x hx
  · rwa [List.mem_singleton.1 hx]

/-- The trailing silence completes the stream (R101). -/
theorem IsScanned.append_tail {out : List Byte} (h : IsScanned out) : IsStream (out ++ silence tailSilence) := by
  obtain ⟨rs, hrs, rfl⟩ := h
  exact ⟨rs, hrs, rfl⟩

theorem levels_recordSamples (r : Record) : Levels (recordSamples r) :=
  levels_blockSyncPulses.append (levels_payloadPulses _)

theorem IsScanned.levels {out : List Byte} (h : IsScanned out) : Levels out := by
  obtain ⟨rs, -, rfl⟩ := h
  refine levels_preamble.append fun b hb => ?_
  obtain ⟨r, -, hr⟩ := List.mem_flatMap.1 hb
  exact levels_recordSamples r b hr

theorem levels_sampleStream {rs : List Record} (hrs : ∀ r ∈ rs, r.wellFormed = true) : Levels (sampleStream rs) :=
  (IsScanned.levels ⟨rs, hrs, rfl⟩).append (levels_silence tailSilence)

theorem IsStream.levels {out : List Byte} (h : IsStream out) : Levels out := by
  obtain ⟨rs, hrs, rfl⟩ := h
  exact levels_sampleStream hrs

/-- The container of a whole stream is a whole result (R69, R102). -/
theorem IsStream.isResult {out : List Byte} (h : IsStream out) (hl : out.length ≤ maxSamples) :
    IsResult (wavHeaderBytes out.length ++ out) := by
  obtain ⟨rs, hrs, rfl⟩ := h
  exact .inr (.inr ⟨rs, hrs, hl, rfl⟩)

theorem IsEncoded.levels {out : List Byte} (h : IsEncoded out) : Levels out := by
  rcases h with ⟨bit, rfl⟩ | ⟨b, rfl⟩ | ⟨count, rfl⟩ | rfl | rfl
  · exact levels_bitPulses bit
  · exact levels_bytePulses b
  · exact levels_silence count
  · exact levels_fileSyncPulses
  · exact levels_blockSyncPulses

/-- But for a header in front of it, a result holds sample levels only (R23, R32). -/
theorem IsResult.levels_or_header {out : List Byte} (h : IsResult out) :
    Levels out ∨ (∃ samples, Levels samples ∧ out = wavHeaderBytes samples.length ++ samples) ∨
      ∃ count, count ≤ maxSamples ∧ out = wavHeaderBytes count := by
  rcases h with henc | hhead | ⟨rs, hrs, -, hout⟩
  · exact .inl henc.levels
  · exact .inr (.inr hhead)
  · exact .inr (.inl ⟨sampleStream rs, levels_sampleStream hrs, hout⟩)

/-- The record whose payload a consumed record is read from IN. -/
def recordAt (id : Byte) (len : Length) (s : State) : Record :=
  ⟨id, (List.range len.toNat).map fun k => Memory.read s.input (payloadOffset s.cur.value + k)⟩

theorem recordAt_wellFormed {id : Byte} (hb : isBlockId id = true) (len : Length) (s : State) :
    (recordAt id len s).wellFormed = true := by
  have := len.isLt
  simp only [Record.wellFormed, recordAt, hb, List.length_map, List.length_range, Bool.true_and, decide_eq_true_eq]
  omega

theorem consumed_out_eq (id : Byte) (len : Length) (s : State) :
    (consumed id len s).out = s.out ++ recordSamples (recordAt id len s) := rfl

end Sys2Proof.Machine
end

section
/-! SUPPORT. The input memory after a load (R22, R41, R150). -/

namespace Sys2Proof.Machine

theorem Memory.wf_ofBytes (bytes : List Byte) : Memory.wf (Memory.ofBytes bytes) :=
  (Memory.load_spec bytes [] 0 Memory.wf_nil).1

theorem Memory.mem_ofBytes {bytes : List Byte} {c : Host.Cell} (h : c ∈ Memory.ofBytes bytes) :
    c.1 < bytes.length := by
  rcases Memory.mem_load h with h | ⟨-, h⟩
  · cases h
  · omega

theorem Memory.read_ofBytes {bytes : List Byte} {a : Nat} (h : a < bytes.length) :
    Memory.read (Memory.ofBytes bytes) a = bytes[a] := by
  rw [Memory.ofBytes, (Memory.load_spec bytes [] 0 Memory.wf_nil).2 a, if_pos (by omega), Nat.sub_zero,
    List.getD_eq_getElem _ _ h]

theorem State.loadInput_byteAt (bytes : List Byte) (s : State) (a : Nat) :
    (s.loadInput bytes).byteAt a = bytes[a]? := by
  rw [State.byteAt, State.loadInput_n, State.loadInput_input]
  split
  · next h => rw [Memory.read_ofBytes h, List.getElem?_eq_getElem h]
  · next h => rw [List.getElem?_eq_none (by omega)]

theorem State.loadInput_inBytes (bytes : List Byte) (s : State) : (s.loadInput bytes).inBytes = bytes :=
  List.ext_getElem? fun a => by rw [State.inBytes_getElem?, State.loadInput_byteAt]

end Sys2Proof.Machine
end

section
/-! SUPPORT. The invariant, phase by phase, and how steps and host moves keep it. -/

namespace Sys2Proof.Machine

/-- What the invariant asks of OUT and CUR in a phase. -/
def Fits (out : List Byte) (cur : Latch Nat) : Phase → Prop
  | .idle | .leadIn | .error => out = []
  | .init => True
  | .scan => IsScanned out ∧ cur.held = true ∧ leadInBytes ≤ cur.value
  | .tail => IsScanned out
  | .final => IsStream out
  | .done => IsResult out

/-- The invariant, with what it asks of OUT and CUR told by the phase: the sample levels follow from the stream. -/
theorem State.inv_iff {s : State} :
    s.Inv ↔ (Memory.wf s.input ∧ ∀ c ∈ s.input, c.1 < s.n) ∧ (s.issued = true → s.phase.quiescent = true) ∧
      (s.err ≠ .none ↔ s.phase = .error) ∧ Fits s.out s.cur s.phase := by
  constructor
  · rintro ⟨hcan, hin, hiss, herr, hempty, -, hscan, hfinal, hcur, hdone⟩
    refine ⟨⟨hcan, hin⟩, hiss, herr, ?_⟩
    cases hp : s.phase with
    | idle => exact hempty (.inl hp)
    | init => trivial
    | leadIn => exact hempty (.inr (.inl hp))
    | scan => exact ⟨hscan (.inl hp), hcur hp⟩
    | tail => exact hscan (.inr hp)
    | final => exact hfinal hp
    | done => exact hdone hp
    | error => exact hempty (.inr (.inr hp))
  · rintro ⟨⟨hcan, hin⟩, hiss, herr, hfits⟩
    refine ⟨hcan, hin, hiss, herr, ?_, ?_, ?_, ?_, ?_, ?_⟩
    · rintro (hp | hp | hp) <;> rw [hp] at hfits <;> exact hfits
    · rintro (hp | hp | hp) <;> rw [hp] at hfits
      · exact hfits.1.levels
      · exact IsScanned.levels hfits
      · exact IsStream.levels hfits
    · rintro (hp | hp) <;> rw [hp] at hfits
      · exact hfits.1
      · exact hfits
    · intro hp; rw [hp] at hfits; exact hfits
    · intro hp; rw [hp] at hfits; exact hfits.2
    · intro hp; rw [hp] at hfits; exact hfits

section
variable {s t : State}

theorem State.Inv.fits {p : Phase} (h : s.Inv) (hp : s.phase = p) : Fits s.out s.cur p :=
  hp ▸ (State.inv_iff.1 h).2.2.2

/-- A state with the same IN and N has the invariant when ERR, the waiting bit and OUT are right for its phase. -/
theorem State.Inv.transfer (h : s.Inv) (hin : t.input = s.input) (hn : t.n = s.n)
    (hiss : t.issued = true → t.phase.quiescent = true) (herr : t.err ≠ .none ↔ t.phase = .error)
    (hfits : Fits t.out t.cur t.phase) : t.Inv := by
  refine State.inv_iff.2 ⟨?_, hiss, herr, hfits⟩
  rw [hin, hn]
  exact ⟨h.inputCanonical, h.inputWithinN⟩

/-- A step that neither meets nor leaves an error, and after which no command waits. -/
theorem State.Inv.proceed (h : s.Inv) (hin : t.input = s.input) (hn : t.n = s.n) (hiss : t.issued = false)
    (herr : t.err = .none) (hp : t.phase ≠ .error) (hfits : Fits t.out t.cur t.phase) : t.Inv :=
  h.transfer hin hn (by simp [hiss]) (by simp [herr, hp]) hfits

/-- The abort of every error leaves what ERROR asks for (R131). -/
theorem State.Inv.abort (h : s.Inv) (hin : t.input = s.input) (hn : t.n = s.n) {e : Err} (he : e ≠ .none) :
    (t.raise e).Inv :=
  h.transfer hin hn (fun _ => rfl) (iff_of_true he rfl) rfl

/-- Within a conversion no command waits and there is no error. -/
theorem State.Inv.converting (h : s.Inv) {p : Phase} (hp : s.phase = p) (hq : p.quiescent = false) :
    s.issued = false ∧ s.err = .none := by
  subst hp
  constructor
  · exact Bool.eq_false_iff.2 fun hi => Bool.eq_false_iff.1 hq (h.issuedQuiescent hi)
  · by_contra he
    rw [h.errExactlyInError.1 he] at hq
    cases hq

/-- The invariant is kept by everything a step can do. -/
theorem State.Inv.stepped (h : s.Inv) (hst : Stepped s t) : t.Inv := by
  cases hst with
  | waits => exact h
  | starts => exact h.proceed rfl rfl rfl rfl nofun trivial
  | delivers _ _ xs hx => exact h.proceed rfl rfl rfl rfl nofun hx.isResult
  | rejects _ _ e he => exact h.abort (t := s.takeCommand.clearErr) rfl rfl he.ne_none
  | init hp =>
    obtain ⟨hi, he⟩ := h.converting hp rfl
    exact h.proceed rfl rfl hi he nofun rfl
  | leadIn hp =>
    obtain ⟨hi, he⟩ := h.converting hp rfl
    have hempty : s.out = [] := h.fits hp
    have hout : (leadInStep s).out = preamble := by simp [leadInStep, hempty, preamble]
    exact h.proceed rfl rfl hi he nofun ⟨hout ▸ isScanned_preamble, rfl, Nat.le_refl leadInBytes⟩
  | scanEnds hp | terminates hp =>
    obtain ⟨hi, he⟩ := h.converting hp rfl
    exact h.proceed rfl rfl hi he nofun (h.fits hp).1
  | consumes hp _ id len _ hb =>
    obtain ⟨hi, he⟩ := h.converting hp rfl
    obtain ⟨hscan, -, hcur⟩ := h.fits hp
    have hnext : Fits (consumed id len s).out (consumed id len s).cur .scan :=
      ⟨consumed_out_eq id len s ▸ hscan.append_record (recordAt_wellFormed hb len s), rfl,
        Nat.le_trans hcur (by rw [consumed_cur, Latch.write_value, recordEnd_eq]; omega)⟩
    exact h.proceed rfl rfl hi he (by simp [hp]) (by rwa [consumed_phase, hp])
  | truncates => exact h.abort (t := (s.setId _).setLen _) rfl rfl nofun
  | tail hp =>
    obtain ⟨hi, he⟩ := h.converting hp rfl
    exact h.proceed rfl rfl hi he nofun (IsScanned.append_tail (h.fits hp))
  | composes hp hl =>
    obtain ⟨hi, he⟩ := h.converting hp rfl
    exact h.proceed rfl rfl hi he nofun (IsStream.isResult (h.fits hp) hl)
  | overflows => exact h.abort rfl rfl nofun

theorem inv_reset : State.reset.Inv :=
  State.inv_iff.2 ⟨⟨Memory.wf_nil, by simp [State.reset]⟩, nofun, by simp [State.reset], rfl⟩

/-- The invariant is kept by everything a host move can do (R152). -/
theorem State.Inv.hostMoved {m : HostMove} (h : s.Inv) (hm : hostMove m s = some t) : t.Inv := by
  rcases hostMove_cases hm with ⟨bytes, -, -, rfl⟩ | ⟨c, -, hq, rfl⟩ | ⟨v, -, rfl⟩ | ⟨-, rfl⟩
  · exact State.inv_iff.2 ⟨⟨Memory.wf_ofBytes bytes, fun _ => Memory.mem_ofBytes⟩, (State.inv_iff.1 h).2⟩
  · exact h.transfer rfl rfl (fun _ => hq) h.errExactlyInError (h.fits rfl)
  · exact h
  · exact h.proceed rfl rfl rfl rfl nofun rfl

theorem Reachable.inv (h : Reachable s) : s.Inv :=
  Reachable.keeps inv_reset (fun _ _ hs hst => hs.stepped (stepped_of_step hst)) (fun _ _ _ hs hm => hs.hostMoved hm) h

end

/-! ### The host's duties, and what it can read -/

theorem Phase.busy_iff {p : Phase} : p.busy = true ↔ p.quiescent = false := by simp [Phase.busy]

theorem State.mayIssue_iff {c : Command} {s : State} :
    s.mayIssue c = true ↔ s.phase.quiescent = true ∧ (c.op = 0x07#8 → s.inputLoaded = true) := by
  simp [State.mayIssue, isConvert, or_iff_not_imp_left]

theorem State.readOut_eq_some {s : State} {out : List Byte} :
    s.readOut = some out ↔ s.phase = .done ∧ s.out = out := by simp [State.readOut]

theorem State.readOut_eq_none {s : State} : s.readOut = none ↔ s.phase ≠ .done := by simp [State.readOut]

end Sys2Proof.Machine
end

section
/-! SUPPORT. What a command can do, on any state (R36). -/

namespace Sys2Proof.Machine

/-- A command starts a conversion, delivers a result or raises an error. -/
inductive Commanded (s : State) : State → Prop where
  | starts : Commanded s (s.clearErr.setPhase .init)
  | delivers (xs : List Byte) : Commanded s (s.clearErr.deliver xs)
  | raises (e : Err) (he : e ≠ .none) : Commanded s (s.clearErr.raise e)

theorem commanded_answer (s : State) {r : Except Err (List Byte)} (hr : r ≠ .error .none) :
    Commanded s (s.answer r) := by
  cases r with
  | ok xs => exact .delivers xs
  | error e => exact .raises e fun he => hr (he ▸ rfl)

/-- No operand is turned away without an error to name. -/
theorem map_ne_error_none {α : Type} {r : Except Err α} (f : α → List Byte) (h : r ≠ .error .none) :
    r.map f ≠ .error .none := by
  cases r with
  | ok a => nofun
  | error e => exact fun he => h (congrArg Except.error (Except.error.inj he))

theorem bitOperand_ne_error_none (arg : Nat) : bitOperand arg ≠ .error .none := by
  unfold bitOperand; split <;> nofun

theorem byteOperand_ne_error_none (arg : Nat) : byteOperand arg ≠ .error .none := by
  unfold byteOperand; split <;> nofun

theorem sizeOperand_ne_error_none (count : Nat) : sizeOperand count ≠ .error .none := by
  unfold sizeOperand; split <;> nofun

theorem exec_commanded {i : Instr} (s : State) (h : i.isRecord = false) :
    ∃ t, exec i s = .next t ∧ Commanded s t := by
  cases i with
  | block55 _ | blockAA _ | terminator _ => cases h
  | encodeBit arg => exact ⟨_, rfl, commanded_answer s (map_ne_error_none bitPulses (bitOperand_ne_error_none arg))⟩
  | encodeByte arg => exact ⟨_, rfl, commanded_answer s (map_ne_error_none bytePulses (byteOperand_ne_error_none arg))⟩
  | encodeSilence _ | fileSync _ | blockSync _ => exact ⟨_, rfl, .delivers _⟩
  | wavHeader arg =>
    exact ⟨_, rfl, commanded_answer s (map_ne_error_none wavHeaderBytes (sizeOperand_ne_error_none arg))⟩
  | convert _ => exact ⟨_, rfl, .starts⟩

end Sys2Proof.Machine
end

section
/-! SUPPORT. Who writes the latches (R24, R25). -/

namespace Sys2Proof.Machine

variable {s t : State}

/-- CUR, ID and LEN are kept outside SCAN, but for CUR in LEADIN. -/
theorem Stepped.latches_kept (hst : Stepped s t) (hs : s.phase ≠ .scan) :
    (s.phase ≠ .leadIn → t.cur = s.cur) ∧ t.id = s.id ∧ t.len = s.len := by
  cases hst with
  | scanEnds hp | terminates hp | consumes hp | truncates hp => exact absurd hp hs
  | leadIn hp => exact ⟨absurd hp, rfl, rfl⟩
  | waits | starts | delivers | rejects | init | tail | composes | overflows => exact ⟨fun _ => rfl, rfl, rfl⟩

/-- The SCAN step goes on scanning exactly where it consumes a record, and then advances CUR by LEN + 3. -/
theorem Stepped.cur_of_scan (hst : Stepped s t) (hs : s.phase = .scan) :
    (t.phase = .scan ∧ t.cur = ⟨s.cur.value + (t.len.value.toNat + 3), true⟩) ∨
    (t.phase ≠ .scan ∧ t.cur = s.cur) := by
  cases hst with
  | consumes hp hg id len =>
    have hcur : recordEnd s.cur.value len = s.cur.value + (len.toNat + 3) := by rw [recordEnd_eq]; omega
    exact .inl ⟨hs, congrArg Latch.write hcur⟩
  | scanEnds | terminates | truncates => exact .inr ⟨nofun, rfl⟩
  | waits hq | starts hq | delivers hq | rejects hq => rw [hs] at hq; cases hq
  | init hp | leadIn hp | tail hp | composes hp | overflows hp => rw [hs] at hp; cases hp

end Sys2Proof.Machine
end

section
/-! The statements about the state: the invariant, what each step writes, and the host's side. -/

open Sys2Proof Sys2Proof.Machine

/-- Settles O4, by the cases of a step. -/
theorem everyStepKeepsTheInvariant : Obligations.EveryStepKeepsTheInvariant :=
  fun _ _ hs h => hs.stepped (stepped_of_step h)

/-- Settles O6, from the invariant of every reachable state. -/
theorem everyResultReadIsWhole : Obligations.EveryResultReadIsWhole := by
  intro s out hr hread
  obtain ⟨hp, rfl⟩ := State.readOut_eq_some.1 hread
  have hres : IsResult s.out := hr.inv.doneResult hp
  exact ⟨hres, hres.levels_or_header⟩

/-- Settles O49, by the cases of a step. -/
theorem phaseOnlyMovesForward : Obligations.PhaseOnlyMovesForward := by
  intro s t h
  rcases hq : s.phase.quiescent with _ | _
  · refine ⟨fun _ => ?_, nofun, nofun⟩
    cases stepped_of_step h with
    | waits hq' | starts hq' | delivers hq' | rejects hq' => rw [hq] at hq'; cases hq'
    | init hp | leadIn hp | tail hp => rw [hp]; rfl
    | scanEnds hp | terminates hp => rw [hp]; exact .inr (.inl rfl)
    | consumes hp => rw [hp]; exact .inl hp
    | truncates hp => rw [hp]; exact .inr (.inr rfl)
    | composes hp => rw [hp]; exact .inl rfl
    | overflows hp => rw [hp]; exact .inr rfl
  · refine ⟨fun hb => absurd (Phase.busy_iff.1 hb) (by simp [hq]), fun _ hi => ?_, fun _ hi => ?_⟩
    · rw [step_accepts hq hi] at h
      rcases acceptStep_cases s with ⟨-, e⟩ | ⟨xs, -, e⟩ | ⟨er, -, e⟩ <;> rw [e] at h <;> cases h
      · exact .inl rfl
      · exact .inr (.inl rfl)
      · exact .inr (.inr rfl)
    · rw [step_waits hq hi] at h
      cases h
      rfl

/-- Settles O50, by the three outcomes of a command. -/
theorem commandsLeaveTheRestUnchanged : Obligations.CommandsLeaveTheRestUnchanged := by
  intro s t i hi h
  obtain ⟨u, hu, hc⟩ := exec_commanded s hi
  obtain rfl : u = t := by rw [hu] at h; cases h; rfl
  cases hc with
  | starts | delivers xs => exact ⟨rfl, rfl, rfl, rfl, rfl, rfl, rfl, rfl, iff_of_true rfl nofun, nofun⟩
  | raises e he =>
    exact ⟨rfl, rfl, rfl, rfl, rfl, rfl, rfl, rfl, iff_of_false he (· rfl), fun _ => rfl⟩

/-- Settles O51: no case of a step touches these fields. -/
theorem noStepWritesWhatIsTheHosts : Obligations.NoStepWritesWhatIsTheHosts := by
  intro s t h
  cases stepped_of_step h <;> exact ⟨rfl, rfl, rfl, rfl⟩

/-- Settles O52, by the cases of a step. -/
theorem latchesAreWrittenByLeadInAndScanOnly : Obligations.LatchesAreWrittenByLeadInAndScanOnly := by
  intro s t h
  have hst := stepped_of_step h
  refine ⟨fun hp => ?_, fun hp ht => ?_, fun hp ht => ?_, fun hl hs => (hst.latches_kept hs).1 hl,
    fun hs => (hst.latches_kept hs).2⟩
  · rw [step_leadIn hp] at h
    cases h
    rfl
  · exact (hst.cur_of_scan hp).resolve_right (fun hend => hend.1 ht) |>.2
  · exact (hst.cur_of_scan hp).resolve_left (fun hgo => ht hgo.1) |>.2

/-- Settles O59: a load of the empty memory reads back byte for byte. -/
theorem loadedBytesAreRead : Obligations.LoadedBytesAreRead := by
  intro bytes s
  refine ⟨fun hq => ⟨s.loadInput bytes, if_pos hq, State.loadInput_inBytes bytes s, rfl,
    State.loadInput_byteAt bytes s, rfl, rfl, rfl, rfl, rfl, rfl, rfl, rfl, rfl⟩, fun hb => ?_⟩
  exact if_neg (Bool.eq_false_iff.1 (Phase.busy_iff.1 hb))

/-- Settles O1, by the fields of the reset state. -/
theorem resetLeavesBlockIdleAndEmpty : Obligations.ResetLeavesBlockIdleAndEmpty :=
  ⟨rfl, rfl, rfl, rfl, rfl, rfl⟩

/-- Settles O3: the reset state is IDLE, where the invariant asks for an empty OUT. -/
theorem resetSatisfiesTheInvariant : Obligations.ResetSatisfiesTheInvariant := inv_reset

/-- Settles O55: each field is one part of the concatenation that STATUS is. -/
theorem statusWordHoldsPhaseAndError : Obligations.StatusWordHoldsPhaseAndError := by
  refine ⟨fun s v => ⟨BitVec.extractLsb'_append_eq_right, ?_, ?_, rfl⟩, rfl, rfl⟩
  · exact (BitVec.extractLsb'_append_eq_of_le (Nat.le_refl 3)).trans BitVec.extractLsb'_append_eq_right
  · exact (BitVec.extractLsb'_append_eq_of_le (by decide)).trans BitVec.extractLsb'_append_eq_left

/-- Settles O56; the clause on ERROR is the invariant's. -/
theorem outputIsReadInDoneOnly : Obligations.OutputIsReadInDoneOnly :=
  fun _ => ⟨fun hp => State.readOut_eq_some.2 ⟨hp, rfl⟩, State.readOut_eq_none.2, fun hs hp => hs.outEmpty (.inr (.inr hp))⟩

/-- Settles O58, by the host's duty on issuing a command. -/
theorem commandsAreIssuedWhenQuiescent : Obligations.CommandsAreIssuedWhenQuiescent := by
  intro c s
  refine ⟨fun hq hc => if_pos (State.mayIssue_iff.2 ⟨hq, hc⟩), fun hb => ?_, fun hc hl => ?_⟩
  · exact if_neg fun hm => Bool.eq_false_iff.1 (Phase.busy_iff.1 hb) (State.mayIssue_iff.1 hm).1
  · exact if_neg fun hm => Bool.eq_false_iff.1 hl ((State.mayIssue_iff.1 hm).2 hc)

end

section
/-! SUPPORT. What the loop of R104 makes of any input: the samples of whole records, from the bytes behind the lead-in
alone. -/

namespace Sys2Proof.Machine

/-! ### The samples of a scan -/

section
variable {bytes : List Byte}

/-- One pass of the loop ends the scan, aborts it, or goes on with the samples of one more well-formed record. -/
theorem scanFrom_pass (bytes : List Byte) (fuel c : Nat) (xs : List Byte) :
    scanFrom bytes (fuel + 1) c xs = .ok xs ∨
    scanFrom bytes (fuel + 1) c xs = .error .truncatedInput ∨
    ∃ r : Record, r.wellFormed = true ∧ ∃ c', scanFrom bytes (fuel + 1) c xs =
      scanFrom bytes fuel c' (xs ++ recordSamples r) := by
  by_cases hg : c + 3 < bytes.length
  · rcases hb : isBlockId (bytes.getD c 0#8) with _ | _
    · exact .inl (scanFrom_terminator _ xs hb)
    · obtain ⟨l, hl⟩ : ∃ l, l = (bytes.getD (c + 1) 0#8).toNat + 256 * (bytes.getD (c + 2) 0#8).toNat := ⟨_, rfl⟩
      rcases Nat.lt_or_ge bytes.length (c + 3 + l) with ht | hc
      · exact .inr (.inl (scanFrom_truncates fuel xs hg hb hl ht))
      · have hl16 : l ≤ 65535 := by
          have := (bytes.getD (c + 1) 0#8).isLt
          have := (bytes.getD (c + 2) 0#8).isLt
          omega
        refine .inr (.inr ⟨⟨bytes.getD c 0#8, (bytes.drop (c + 3)).take l⟩, ?_, _,
          scanFrom_consumes fuel xs hg hb hl hc⟩)
        rw [Record.wellFormed, hb, Bool.true_and, decide_eq_true_eq]
        exact (List.length_take_le _ _).trans hl16
  · exact .inl (scanFrom_ends _ xs hg)

/-- A scan that is not aborted adds the samples of whole records (R69, R98, R99). -/
theorem IsScanned.scanFrom_ok {fuel c : Nat} {xs ys : List Byte} (hx : IsScanned xs)
    (h : scanFrom bytes fuel c xs = .ok ys) : IsScanned ys := by
  induction fuel generalizing c xs with
  | zero => cases h; exact hx
  | succ fuel ih =>
    rcases scanFrom_pass bytes fuel c xs with e | e | ⟨r, hr, c', e⟩ <;> rw [e] at h
    · cases h; exact hx
    · cases h
    · exact ih (hx.append_record hr) h

theorem convert_eq (bytes : List Byte) :
    convert bytes = (scanFrom bytes bytes.length leadInBytes preamble).bind closeStream := by
  rw [convert]
  cases scanFrom bytes bytes.length leadInBytes preamble <;> rfl

/-- A successful conversion gives the container of the whole sample stream of some records (R69, R102). -/
theorem convert_ok {out : List Byte} (h : convert bytes = .ok out) :
    ∃ samples, IsStream samples ∧ out = wavHeaderBytes samples.length ++ samples := by
  rw [convert_eq] at h
  rcases hs : scanFrom bytes bytes.length leadInBytes preamble with e | xs <;> rw [hs] at h
  · cases h
  · refine ⟨xs ++ silence tailSilence, (isScanned_preamble.scanFrom_ok hs).append_tail, ?_⟩
    rcases wavContainer_cases (xs ++ silence tailSilence) with ⟨-, e⟩ | ⟨-, e⟩ <;> cases e.symm.trans h
    rfl

end

/-! ### The bytes a scan reads -/

/-- The scan does not see what stands in front of its offset: one byte more there moves the offset only (R48). -/
theorem scanFrom_cons (b : Byte) (rest : List Byte) (fuel c : Nat) (xs : List Byte) :
    scanFrom (b :: rest) fuel (c + 1) xs = scanFrom rest fuel c xs := by
  induction fuel generalizing c xs with
  | zero => rfl
  | succ fuel ih =>
    have hnext (l : Nat) : c + 1 + 3 + l = c + 3 + l + 1 := by omega
    simp only [scanFrom, hnext, ih, List.length_cons, List.getD_cons_succ, List.drop_succ_cons, gt_iff_lt,
      Nat.add_lt_add_iff_right, Nat.add_right_comm c 1]

/-- A conversion scans what stands behind the three lead-in bytes, whatever they are (R48). -/
theorem convert_leadIn (b0 b1 b2 : Byte) (rest : List Byte) :
    convert (b0 :: b1 :: b2 :: rest) = (scanFrom rest (rest.length + 3) 0 preamble).bind closeStream := by
  rw [convert_eq, show leadInBytes = 0 + 1 + 1 + 1 from rfl, scanFrom_cons, scanFrom_cons, scanFrom_cons]
  rfl

end Sys2Proof.Machine
end

section
/-! SUPPORT. Where the parts of the WAV container of a sample stream lie (R49). -/

namespace Sys2Proof.Machine

/-- The sample stream, its parts in the order in which they are cut off. -/
theorem sampleStream_eq (rs : List Record) :
    sampleStream rs =
      silence leadSilence ++ (fileSyncPulses ++ (rs.flatMap recordSamples ++ silence tailSilence)) := by
  simp only [sampleStream, List.append_assoc]

section
variable (rs : List Record) {header : List Byte} (hh : header.length = 44)
include hh

theorem container_drop_header (samples : List Byte) : (header ++ samples).drop 44 = samples := List.drop_left' hh

theorem container_drop_silence :
    (header ++ sampleStream rs).drop 2044 = fileSyncPulses ++ (rs.flatMap recordSamples ++ silence tailSilence) := by
  rw [show 2044 = 44 + 2000 from rfl, ← List.drop_drop, container_drop_header hh, sampleStream_eq]
  exact List.drop_left' (silence_length _)

theorem container_drop_fileSync :
    (header ++ sampleStream rs).drop 47100 = rs.flatMap recordSamples ++ silence tailSilence := by
  rw [show 47100 = 2044 + 45056 from rfl, ← List.drop_drop, container_drop_silence rs hh]
  exact List.drop_left' fileSyncPulses_length

end

theorem container_drop_last (header : List Byte) (rs : List Record) :
    (header ++ sampleStream rs).drop ((header ++ sampleStream rs).length - 1000) = silence tailSilence := by
  have hsuffix : silence tailSilence <:+ header ++ sampleStream rs :=
    (List.suffix_append _ _).trans (List.suffix_append header _)
  rw [List.suffix_iff_eq_drop, silence_length] at hsuffix
  exact hsuffix.symm

end Sys2Proof.Machine
end

section
/-! The statements about memory: reads of IN, what OUT holds, and what leaves the block alone. -/

open Sys2Proof Sys2Proof.Machine

/-- Settles O7: the cases of a step cover every state. -/
theorem everyStepCompletes : Obligations.EveryStepCompletes := fun s =>
  (step_cases s).imp fun _ h => h.1

/-- Settles O42: the result is a header and the sample stream of some records, whose parts lie at these offsets. -/
theorem outputMapHasItsOffsets : Obligations.OutputMapHasItsOffsets := by
  intro bytes out h
  obtain ⟨_, ⟨rs, hrs, rfl⟩, rfl⟩ := convert_ok h
  have hh : (wavHeaderBytes (sampleStream rs).length).length = 44 := wavHeaderBytes_length _
  refine ⟨?_, ?_, ?_, container_drop_last _ rs, rs, hrs, container_drop_fileSync rs hh⟩
  · rw [List.take_left' hh, List.length_append, hh, Nat.add_sub_cancel_left]
  · rw [container_drop_header hh, sampleStream_eq]
    exact List.take_left' (silence_length _)
  · rw [container_drop_silence rs hh, List.take_left' fileSyncPulses_length]
    exact payloadPulses_replicate _ _

/-- Settles O48: both conversions scan `rest` alone. -/
theorem leadInBytesAreIgnored : Obligations.LeadInBytesAreIgnored := fun a0 a1 a2 b0 b1 b2 rest =>
  (convert_leadIn a0 a1 a2 rest).trans (convert_leadIn b0 b1 b2 rest).symm

/-- Settles O53, phase by phase. -/
theorem bufferGrowsAtItsEnd : Obligations.BufferGrowsAtItsEnd := by
  intro s t h
  refine ⟨fun hp ht => ?_, fun hp ht => ?_, fun hp => ?_⟩
  · rcases hp with hp | hp | hp
    · rw [step_leadIn hp] at h
      cases h
      exact (List.prefix_append _ _).trans (List.prefix_append _ _)
    · rw [step_scan hp] at h
      rcases scanStep_cases s with ⟨-, e⟩ | ⟨-, id, -, ⟨-, e⟩ | ⟨-, len, -, ⟨-, e⟩ | ⟨-, e⟩⟩⟩ <;> cases e.symm.trans h
      · exact List.prefix_rfl
      · exact List.prefix_rfl
      · exact List.prefix_append _ _
      · exact absurd rfl ht
    · rw [step_tail hp] at h
      cases h
      exact List.prefix_append _ _
  · rw [step_final hp] at h
    cases h
    rcases finalStep_cases s with ⟨-, e⟩ | ⟨-, e⟩ <;> rw [e] at ht ⊢
    · rfl
    · exact absurd rfl ht
  · rw [step_init hp] at h
    cases h
    rfl

/-- Settles O57: a load or an issued command needs a quiescent phase, and a write of STATUS changes nothing. -/
theorem busyBlockIsLeftAlone : Obligations.BusyBlockIsLeftAlone := by
  intro m s t hb hm h
  have hq : s.phase.quiescent ≠ true := Bool.eq_false_iff.1 (Phase.busy_iff.1 hb)
  rcases hostMove_cases h with ⟨_, -, hq', -⟩ | ⟨_, -, hq', -⟩ | ⟨_, -, rfl⟩ | ⟨rfl, -⟩
  · exact absurd hq' hq
  · exact absurd hq' hq
  · rfl
  · exact absurd rfl hm

end

section
/-! SUPPORT. The two encodings: an instruction's spelling and what the decoder reads from it. -/

namespace Sys2Proof

/-! ### Records -/

theorem recordHeader_assembleLength (id lo hi : Byte) : recordHeader id (assembleLength lo hi) = [id, lo, hi] := by
  obtain ⟨hlo, hhi⟩ := extract_assembleLength lo hi
  rw [recordHeader, hlo, hhi]

/-- A terminator is well formed where its id is no data id (R59). -/
theorem wellFormed_terminator {id : Byte} : (Instr.terminator id).wellFormed = true ↔ isBlockId id = false := by
  rw [isBlockId_eq_false]
  simp [Instr.wellFormed]

/-- Bytes that decode begin with the spelling of their instruction. -/
theorem encode_of_decodeRecord {bytes : List Byte} {i : Instr} (h : decodeRecord bytes = .ok i) :
    i.wellFormed = true ∧ ∃ header rest, encode i = .stream header ∧ bytes = header ++ rest := by
  rcases decodeRecord_cases h with ⟨lo, hi, rest, rfl, rfl⟩ | ⟨lo, hi, rest, rfl, rfl⟩ | ⟨id, rest, rfl, hb, rfl⟩
  · exact ⟨rfl, _, rest, congrArg Encoding.stream (recordHeader_assembleLength 0x55#8 lo hi), rfl⟩
  · exact ⟨rfl, _, rest, congrArg Encoding.stream (recordHeader_assembleLength 0xAA#8 lo hi), rfl⟩
  · exact ⟨wellFormed_terminator.2 hb, [id], rest, rfl, rfl⟩

/-- The header bytes, as remainder and quotient of the length (R57). -/
theorem recordHeader_eq (id : Byte) (len : Length) :
    recordHeader id len = [id, BitVec.ofNat 8 (len.toNat % 256), BitVec.ofNat 8 (len.toNat / 256)] := by
  rw [recordHeader, ← header_lo_toNat, ← header_hi_toNat, BitVec.ofNat_toNat, BitVec.ofNat_toNat,
    BitVec.setWidth_eq, BitVec.setWidth_eq]

/-- The header of a length given as a natural: what 16 bits do not hold is lost. -/
theorem recordHeader_ofNat (id : Byte) (l : Nat) :
    recordHeader id (BitVec.ofNat 16 l) = [id, BitVec.ofNat 8 (l % 256), BitVec.ofNat 8 (l / 256)] := by
  have hlo : l % 2 ^ 16 % 256 = l % 256 := by omega
  have hhi : BitVec.ofNat 8 (l % 2 ^ 16 / 256) = BitVec.ofNat 8 (l / 256) := by
    apply BitVec.eq_of_toNat_eq
    simp only [BitVec.toNat_ofNat]
    omega
  rw [recordHeader_eq, BitVec.toNat_ofNat, hlo, hhi]

/-! ### Commands -/

/-- A command that decodes is the spelling of its instruction. -/
theorem encode_of_decodeCommand {c : Command} {i : Instr} (h : decodeCommand c = .ok i) :
    i.wellFormed = true ∧ encode i = .command c := by
  obtain ⟨op, arg⟩ := c
  rcases decodeCommand_cases ⟨op, arg⟩ with
    ⟨ho, e⟩ | ⟨ho, e⟩ | ⟨ho, e⟩ | ⟨ho, e⟩ | ⟨ho, e⟩ | ⟨ho, e⟩ | ⟨ho, e⟩ | ⟨-, e⟩ <;> cases e.symm.trans h <;>
    exact ⟨rfl, congrArg (fun o => Encoding.command ⟨o, arg⟩) ho.symm⟩

/-- The codes outside 0x01 to 0x07 are unassigned (R72). -/
theorem decodeCommand_unassigned {c : Command} (h : c.op = 0x00#8 ∨ 0x08#8 ≤ c.op) :
    decodeCommand c = .error (.unassignedOp c.op) := by
  rcases decodeCommand_cases c with
    ⟨ho, -⟩ | ⟨ho, -⟩ | ⟨ho, -⟩ | ⟨ho, -⟩ | ⟨ho, -⟩ | ⟨ho, -⟩ | ⟨ho, -⟩ | ⟨-, e⟩
  case inr.inr.inr.inr.inr.inr.inr => exact e
  all_goals
    rw [ho] at h
    exact absurd h (by decide)

end Sys2Proof
end

section
/-! SUPPORT. The pulse code: the length of an encoded byte, and that the code is uniquely decodable (R67, R68). -/

namespace Sys2Proof.Machine

/-! ### Lengths -/

/-- The pulse pairs of some bits, one after another: 16 samples for a 0 bit, 6 for a 1 bit. -/
theorem flatMap_bitPulses_length (bit : Nat → Bool) (is : List Nat) :
    (is.flatMap fun i => bitPulses (bit i)).length = (is.map fun i => if bit i then 6 else 16).sum := by
  simp only [List.length_flatMap, bitPulses_length]

/-- Every 1 bit makes the run shorter by 10 samples. -/
theorem sum_bitLengths (bit : Nat → Bool) (is : List Nat) :
    (is.map fun i => if bit i then 6 else 16).sum + 10 * (is.filter bit).length = 16 * is.length := by
  induction is with
  | nil => rfl
  | cons i is ih => cases hb : bit i <;> simp [hb] <;> omega

theorem popcount_le (b : Byte) : popcount b ≤ 8 := List.length_filter_le _ bitOrder

theorem bytePulses_length_eq_sum (b : Byte) :
    (bytePulses b).length = (bitOrder.map fun i => if b.getLsbD i then 6 else 16).sum :=
  flatMap_bitPulses_length (fun i => b.getLsbD i) bitOrder

theorem bytePulses_length (b : Byte) : (bytePulses b).length = byteSamples b := by
  have hsum : (bitOrder.map fun i => if b.getLsbD i then 6 else 16).sum + 10 * popcount b = 16 * 8 :=
    sum_bitLengths (fun i => b.getLsbD i) bitOrder
  rw [bytePulses_length_eq_sum, byteSamples]
  omega

/-! ### Unique decodability -/

/-- The first pulse pair of a run tells its bit, and so where the next one begins. -/
theorem bitPulses_append_inj {a b : Bool} {xs ys : List Byte} (h : bitPulses a ++ xs = bitPulses b ++ ys) :
    a = b ∧ xs = ys := by
  have hfourth : (if a then negPeak else posPeak) = if b then negPeak else posPeak := by
    have := congrArg (·[3]?) h
    simpa only [bitPulses_fourth, Option.some.injEq] using this
  have hab : a = b := by revert hfourth; cases a <;> cases b <;> decide
  subst hab
  exact ⟨rfl, List.append_cancel_left h⟩

/-- The same for the bits of two sequences at the same positions. -/
theorem flatMap_bitPulses_append_inj {a b : Nat → Bool} {is : List Nat} {xs ys : List Byte}
    (h : (is.flatMap fun i => bitPulses (a i)) ++ xs = (is.flatMap fun i => bitPulses (b i)) ++ ys) :
    (∀ i ∈ is, a i = b i) ∧ xs = ys := by
  induction is with
  | nil => exact ⟨nofun, h⟩
  | cons i is ih =>
    simp only [List.flatMap_cons, List.append_assoc] at h
    obtain ⟨hi, hrest⟩ := bitPulses_append_inj h
    obtain ⟨his, hxs⟩ := ih hrest
    exact ⟨List.forall_mem_cons.2 ⟨hi, his⟩, hxs⟩

theorem mem_bitOrder {i : Nat} (h : i < 8) : i ∈ bitOrder :=
  (by decide : ∀ i < 8, i ∈ bitOrder) i h

/-- The first encoded byte of a run tells the byte, and where the next one begins. -/
theorem bytePulses_append_inj {a b : Byte} {xs ys : List Byte} (h : bytePulses a ++ xs = bytePulses b ++ ys) :
    a = b ∧ xs = ys := by
  obtain ⟨hbits, hxs⟩ := flatMap_bitPulses_append_inj h
  exact ⟨BitVec.eq_of_getLsbD_eq fun i hi => hbits i (mem_bitOrder hi), hxs⟩

/-- A code whose first word can always be split off tells all sequences of words apart. -/
theorem flatMap_injective_of_append_inj {α β : Type} {code : α → List β} (hne : ∀ a, code a ≠ [])
    (hinj : ∀ {a b xs ys}, code a ++ xs = code b ++ ys → a = b ∧ xs = ys) :
    Function.Injective (List.flatMap code) := by
  intro as
  induction as with
  | nil =>
    intro bs h
    cases bs with
    | nil => rfl
    | cons b bs => exact absurd (List.append_eq_nil_iff.1 h.symm).1 (hne b)
  | cons a as ih =>
    intro bs h
    cases bs with
    | nil => exact absurd (List.append_eq_nil_iff.1 h).1 (hne a)
    | cons b bs =>
      obtain ⟨rfl, hrest⟩ := hinj h
      rw [ih hrest]

theorem bitPulses_ne_nil (bit : Bool) : bitPulses bit ≠ [] := by cases bit <;> decide

theorem bytePulses_ne_nil (b : Byte) : bytePulses b ≠ [] := fun h =>
  bitPulses_ne_nil _ (List.append_eq_nil_iff.1 h).1

end Sys2Proof.Machine
end

section
/-! SUPPORT. The scan of written records: from the bytes of R56 to the sample stream of R69. -/

namespace Sys2Proof.Machine

theorem recordHeader_length (id : Byte) (len : Length) : (recordHeader id len).length = 3 := rfl

theorem Record.bytes_length (r : Record) : r.bytes.length = 3 + r.payload.length := by
  rw [Record.bytes, List.length_append, recordHeader_length]

theorem Record.wellFormed_iff {r : Record} :
    r.wellFormed = true ↔ isBlockId r.id = true ∧ r.payload.length ≤ 65535 := by
  simp [Record.wellFormed]

/-- The length that a well-formed record declares is that of its payload (R57). -/
theorem Record.bytes_eq {r : Record} (h : r.payload.length ≤ 65535) :
    ∃ lo hi : Byte, r.bytes = r.id :: lo :: hi :: r.payload ∧ r.payload.length = lo.toNat + 256 * hi.toNat := by
  refine ⟨_, _, rfl, ?_⟩
  rw [header_lo_toNat, header_hi_toNat, BitVec.toNat_ofNat]
  omega

/-- A record has at least the three bytes of its header. -/
theorem length_le_flatMap_bytes (rs : List Record) : rs.length ≤ (rs.flatMap Record.bytes).length := by
  induction rs with
  | nil => exact Nat.le_refl 0
  | cons r rs ih =>
    rw [List.flatMap_cons, List.length_append, List.length_cons, Record.bytes_length]
    omega

/-- The scan does not see what stands in front of its offset. -/
theorem scanFrom_append (front rest : List Byte) (fuel : Nat) (xs : List Byte) :
    scanFrom (front ++ rest) fuel front.length xs = scanFrom rest fuel 0 xs := by
  induction front with
  | nil => rfl
  | cons b front ih => rw [List.cons_append, List.length_cons, scanFrom_cons, ih]

/-- A well-formed record that the loop guard reaches is consumed, and the scan goes on behind it. -/
theorem scanFrom_record {r : Record} {rest : List Byte} (fuel : Nat) (xs : List Byte) (hr : r.wellFormed = true)
    (hg : 3 < (r.bytes ++ rest).length) :
    scanFrom (r.bytes ++ rest) (fuel + 1) 0 xs = scanFrom rest fuel 0 (xs ++ recordSamples r) := by
  obtain ⟨hid, hlen⟩ := Record.wellFormed_iff.1 hr
  obtain ⟨lo, hi, hbytes, hl⟩ := Record.bytes_eq hlen
  have hend : r.bytes.length = 0 + 3 + r.payload.length := by rw [Record.bytes_length]
  have hpayload : ((r.bytes ++ rest).drop (0 + 3)).take r.payload.length = r.payload := by
    rw [hbytes]
    exact List.take_left' rfl
  rw [scanFrom_consumes (l := r.payload.length) fuel xs (by omega) (by rw [hbytes]; exact hid)
    (by rw [hbytes]; exact hl) (by rw [List.length_append]; omega), hpayload, ← hend, scanFrom_append]
  rfl

/-- Records with something behind them are consumed one after another (R55, R98, R99). -/
theorem scanFrom_records {rs : List Record} {rest : List Byte} (fuel : Nat) (xs : List Byte)
    (hrs : ∀ r ∈ rs, r.wellFormed = true) (hrest : rest ≠ []) :
    scanFrom (rs.flatMap Record.bytes ++ rest) (fuel + rs.length) 0 xs =
      scanFrom rest fuel 0 (xs ++ rs.flatMap recordSamples) := by
  induction rs generalizing xs with
  | nil => rw [List.flatMap_nil, List.flatMap_nil, List.append_nil]; rfl
  | cons r rs ih =>
    obtain ⟨hr, hrs⟩ := List.forall_mem_cons.1 hrs
    have hg : 3 < (r.bytes ++ (rs.flatMap Record.bytes ++ rest)).length := by
      have := List.length_pos_iff.2 hrest
      rw [List.length_append, List.length_append, Record.bytes_length]
      omega
    rw [List.flatMap_cons, List.append_assoc, List.length_cons, ← Nat.add_assoc, scanFrom_record _ xs hr hg,
      ih _ hrs, List.flatMap_cons, List.append_assoc]

/-- What TAIL and FINAL make of a scan that ends with the samples of whole records (R69, R101, R102). -/
theorem closeStream_records (rs : List Record) :
    (Except.ok (preamble ++ rs.flatMap recordSamples)).bind closeStream = wavContainer (sampleStream rs) := by
  rw [Except.bind, closeStream, preamble, sampleStream]

/-- A conversion of records behind a lead-in, ended by a terminator (R55, R95). -/
theorem convert_records {b0 b1 b2 t : Byte} {rs : List Record} {rest : List Byte}
    (hrs : ∀ r ∈ rs, r.wellFormed = true) (ht : isBlockId t = false) :
    convert (b0 :: b1 :: b2 :: (rs.flatMap Record.bytes ++ t :: rest)) = wavContainer (sampleStream rs) := by
  obtain ⟨fuel, hfuel⟩ : ∃ fuel, (rs.flatMap Record.bytes ++ t :: rest).length + 3 = fuel + rs.length :=
    Nat.exists_eq_add_of_le' (by have := length_le_flatMap_bytes rs; rw [List.length_append]; omega)
  rw [convert_leadIn, hfuel, scanFrom_records fuel preamble hrs (List.cons_ne_nil t rest),
    scanFrom_terminator fuel _ (show isBlockId ((t :: rest).getD 0 0#8) = false from ht), closeStream_records]

end Sys2Proof.Machine
end

section
/-! The statements about the encodings: instructions, pulses, and the records of an input. -/

open Sys2Proof Sys2Proof.Machine

/-- Settles O8, instruction by instruction. -/
theorem decodingAnEncodingGivesTheInstruction : Obligations.DecodingAnEncodingGivesTheInstruction := by
  intro i
  cases i with
  | block55 len => exact Laws.RoundTrip.block55 len
  | blockAA len => exact Laws.RoundTrip.blockAA len
  | terminator id => exact Laws.RoundTrip.terminator id
  | encodeBit arg => exact Laws.RoundTrip.encodeBit arg
  | encodeByte arg => exact Laws.RoundTrip.encodeByte arg
  | encodeSilence arg => exact Laws.RoundTrip.encodeSilence arg
  | fileSync arg => exact Laws.RoundTrip.fileSync arg
  | blockSync arg => exact Laws.RoundTrip.blockSync arg
  | wavHeader arg => exact Laws.RoundTrip.wavHeader arg
  | convert arg => exact Laws.RoundTrip.convert arg

/-- Settles O9, for each of the two encodings by the cases of its decoder. -/
theorem whatDecodesIsSpelledOneWay : Obligations.WhatDecodesIsSpelledOneWay :=
  fun _ => ⟨fun _ h => encode_of_decodeCommand h, fun _ h => encode_of_decodeRecord h⟩

/-- Settles O22: of both codes the first word can be split off. -/
theorem pulsesTellTheirBitsApart : Obligations.PulsesTellTheirBitsApart :=
  ⟨fun _ _ h => flatMap_injective_of_append_inj bitPulses_ne_nil bitPulses_append_inj h,
    fun _ _ h => flatMap_injective_of_append_inj bytePulses_ne_nil bytePulses_append_inj h⟩

/-- Settles O40, by induction on the records; the size of the stream decides between the two outcomes. -/
theorem recordsBecomeTheSampleStream : Obligations.RecordsBecomeTheSampleStream := by
  intro b0 b1 b2 t rs rest hrs ht
  refine (convert_records hrs ht).trans ?_
  rcases wavContainer_cases (sampleStream rs) with ⟨hl, e⟩ | ⟨hl, e⟩
  · exact e.trans (if_pos hl).symm
  · exact e.trans (if_neg (Nat.not_le.2 hl)).symm

/-- Settles O41, from what any successful conversion is made of. -/
theorem everySuccessHasTheGrammar : Obligations.EverySuccessHasTheGrammar := by
  intro bytes out h
  obtain ⟨_, ⟨rs, hrs, rfl⟩, rfl⟩ := convert_ok h
  exact ⟨rs, hrs, rfl⟩

/-- Settles O10, by running the decoder on each word. -/
theorem writtenWordsDecode : Obligations.WrittenWordsDecode := ⟨rfl, rfl, rfl, rfl, rfl, rfl, rfl⟩

/-- Settles O11: a length beyond 16 bits is cut by the directive as by its two bytes. -/
theorem blockDirectiveWritesTheRecord : Obligations.BlockDirectiveWritesTheRecord := by
  have single (d : Directive) : listingBytes [d] = d.bytes := List.append_nil _
  refine ⟨fun id payload => ?_, fun id l => ?_, fun b0 b1 b2 => rfl, by decide, fun bytes => single (.db bytes)⟩
  · rw [single, Directive.bytes, Record.bytes, recordHeader_ofNat]
  · rw [single, Directive.bytes, recordHeader_eq]

/-- Settles O14: the decoder has no instruction for the code, and acceptance raises the error. -/
theorem unassignedCommandRaisesUnknownCommand : Obligations.UnassignedCommandRaisesUnknownCommand :=
  fun _ hq hi hop => (step_accepts hq hi).trans (acceptStep_error (decodeCommand_unassigned hop))

/-- Settles O21: the closed form bounds the length, since a byte has at most eight 1 bits. -/
theorem encodedByteHasItsLength : Obligations.EncodedByteHasItsLength := by
  intro b
  have hlen : (bytePulses b).length = 128 - 10 * popcount b := bytePulses_length b
  have hpop := popcount_le b
  refine ⟨?_, by omega, by omega, bytePulses_length_eq_sum b, hlen⟩
  simp only [bytePulses, bitOrder, List.flatMap_cons, List.flatMap_nil, List.append_nil, List.append_assoc]

/-- Settles O34: both records are `runBlock`, whose two outcomes show the id in the latch only. -/
theorem bothBlockIdsAreTreatedAlike : Obligations.BothBlockIdsAreTreatedAlike := by
  intro len s t u h55 hAA
  rcases Nat.lt_or_ge s.n (recordEnd s.cur.value len) with hl | hl
  · cases (runBlock_truncates hl).symm.trans h55
    cases (runBlock_truncates hl).symm.trans hAA
    rfl
  · cases (runBlock_consumes hl).symm.trans h55
    cases (runBlock_consumes hl).symm.trans hAA
    rfl

end

section
/-! SUPPORT. The results of the encoder commands, in the literal samples of R78 to R87. -/

namespace Sys2Proof.Machine

/-! ### Operands -/

theorem bitOperand_of_gt {arg : Nat} (h : 1 < arg) : bitOperand arg = .error .invalidOperand := if_pos h

theorem byteOperand_of_le {arg : Nat} (h : arg ≤ 255) : byteOperand arg = .ok (BitVec.ofNat 8 arg) :=
  if_neg (Nat.not_lt.2 h)

theorem byteOperand_of_gt {arg : Nat} (h : 255 < arg) : byteOperand arg = .error .invalidByte := if_pos h

/-! ### Samples -/

theorem bitPulses_eq_samples (bit : Bool) :
    bitPulses bit = if bit then [248#8, 248#8, 248#8, 8#8, 8#8, 8#8]
      else List.replicate 8 248#8 ++ List.replicate 8 8#8 := by
  cases bit <;> rfl

theorem lt_of_mem_bitOrder {i : Nat} (h : i ∈ bitOrder) : i < 8 := (by decide : ∀ i ∈ bitOrder, i < 8) i h

/-- The bits that go out for an operand are the operand's own (R39, R81). -/
theorem bytePulses_ofNat (arg : Nat) :
    bytePulses (BitVec.ofNat 8 arg) = bitOrder.flatMap fun i => bitPulses (arg.testBit i) := by
  rw [bytePulses]
  refine List.flatMap_congr fun i hi => ?_
  rw [BitVec.getLsbD_ofNat, decide_eq_true (lt_of_mem_bitOrder hi), Bool.true_and]

theorem fileSyncPulses_eq_flatten : fileSyncPulses = (List.replicate 512 (bytePulses 0xAA#8)).flatten :=
  payloadPulses_replicate _ _

theorem blockSyncPulses_eq_flatten : blockSyncPulses =
    (List.replicate 96 (bytePulses 0xFF#8)).flatten ++ (List.replicate 3 (bytePulses 0xD3#8)).flatten :=
  congrArg₂ (· ++ ·) (payloadPulses_replicate _ _) (payloadPulses_replicate _ _)

/-! ### Commands -/

section
variable {arg : Nat} (s : State)

theorem exec_encodeBit_of_gt (h : 1 < arg) :
    exec (.encodeBit arg) s = .next (s.clearErr.raise .invalidOperand) := by
  rw [exec, execEncodeBit, bitOperand_of_gt h]; rfl

theorem exec_encodeByte_of_le (h : arg ≤ 255) :
    exec (.encodeByte arg) s = .next (s.clearErr.deliver (bytePulses (BitVec.ofNat 8 arg))) := by
  rw [exec, execEncodeByte, byteOperand_of_le h]; rfl

theorem exec_encodeByte_of_gt (h : 255 < arg) :
    exec (.encodeByte arg) s = .next (s.clearErr.raise .invalidByte) := by
  rw [exec, execEncodeByte, byteOperand_of_gt h]; rfl

theorem exec_fileSync : exec (.fileSync arg) s = .next (s.clearErr.deliver fileSyncPulses) := rfl

theorem exec_blockSync : exec (.blockSync arg) s = .next (s.clearErr.deliver blockSyncPulses) := rfl

end

end Sys2Proof.Machine
end

section
/-! The statements about the waveform encoder's commands. -/

open Sys2Proof Sys2Proof.Machine

/-- Settles O16, by the three ranges of the operand. -/
theorem encodeBitGivesOnePulsePair : Obligations.EncodeBitGivesOnePulsePair := by
  intro arg s
  refine ⟨rfl, ?zero, ?one, exec_encodeBit_of_gt s⟩
  case zero => rintro rfl; rfl
  case one => rintro rfl; rfl

/-- Settles O17: the byte of a legal operand has the operand's bits, and each bit its literal samples. -/
theorem encodeByteGivesEightPulsePairs : Obligations.EncodeByteGivesEightPulsePairs := by
  intro arg s
  refine ⟨rfl, fun hle => ?_, exec_encodeByte_of_gt s⟩
  rw [exec_encodeByte_of_le s hle, bytePulses_ofNat]
  simp only [bitPulses_eq_samples]
  rfl

/-- Settles O18: every count is an operand, so the command has one outcome. -/
theorem encodeSilenceGivesTheCount : Obligations.EncodeSilenceGivesTheCount := fun _ _ => ⟨rfl, rfl⟩

/-- Settles O19: the preamble is a run of one byte, and its length does not need its samples. -/
theorem fileSyncGivesThePreamble : Obligations.FileSyncGivesThePreamble := by
  intro arg s
  rw [← fileSyncPulses_eq_flatten]
  exact ⟨rfl, exec_fileSync s, fileSyncPulses_length⟩

/-- Settles O20: the marker is two runs of one byte each. -/
theorem blockSyncGivesTheMarker : Obligations.BlockSyncGivesTheMarker := by
  intro arg s
  rw [← blockSyncPulses_eq_flatten]
  exact ⟨rfl, exec_blockSync s, blockSyncPulses_length⟩

end

section
/-! SUPPORT. What stands at the front of the bytes behind the lead-in, what the scan makes of it, and which bytes end the
scan behind some records (R94 to R99). -/

namespace Sys2Proof.Machine

/-! ### The front of the bytes to scan -/

/-- Where a data header's payload is there in full, the bytes begin with a record (R56, R57). -/
theorem exists_record_of_header {id : Byte} {l : Length} {rest : List Byte} (hid : isBlockId id = true)
    (hfits : l.toNat ≤ rest.length) :
    ∃ (r : Record) (more : List Byte), r.wellFormed = true ∧ recordHeader id l ++ rest = r.bytes ++ more := by
  have hlen : (rest.take l.toNat).length = l.toNat := List.length_take_of_le hfits
  refine ⟨⟨id, rest.take l.toNat⟩, rest.drop l.toNat, Record.wellFormed_iff.2 ⟨hid, ?_⟩, ?_⟩
  · rw [hlen]
    exact Nat.le_of_lt_succ l.isLt
  · rw [Record.bytes, hlen, BitVec.ofNat_toNat, BitVec.setWidth_eq, List.append_assoc, List.take_append_drop]

/-- What the scan can find: too few bytes for the loop guard, a terminator, a whole record, or a cut one. -/
theorem scanned_cases (bytes : List Byte) :
    bytes.length ≤ 3 ∨
    (∃ t more, bytes = t :: more ∧ isBlockId t = false) ∨
    (∃ (r : Record) (more : List Byte), r.wellFormed = true ∧ bytes = r.bytes ++ more ∧ 3 < bytes.length) ∨
    (∃ (id : Byte) (l : Length) (part : List Byte), isBlockId id = true ∧ bytes = recordHeader id l ++ part ∧
      1 ≤ part.length ∧ part.length < l.toNat) := by
  match bytes with
  | [] | [_] | [_, _] | [_, _, _] => exact .inl (by simp)
  | id :: lo :: hi :: b :: more =>
    rcases hb : isBlockId id with _ | _
    · exact .inr (.inl ⟨id, _, rfl, hb⟩)
    have hhead : id :: lo :: hi :: b :: more = recordHeader id (assembleLength lo hi) ++ b :: more := by
      rw [recordHeader_assembleLength]; rfl
    rcases Nat.lt_or_ge (b :: more).length (assembleLength lo hi).toNat with hcut | hfits
    · exact .inr (.inr (.inr ⟨id, _, b :: more, hb, hhead, by simp, hcut⟩))
    · obtain ⟨r, more', hr, hbytes⟩ := exists_record_of_header hb hfits
      exact .inr (.inr (.inl ⟨r, more', hr, hhead.trans hbytes, by simp⟩))

/-- A record whose payload is cut aborts the scan (R97). -/
theorem scanFrom_cut {id : Byte} {l : Length} {part : List Byte} (fuel : Nat) (xs : List Byte)
    (hid : isBlockId id = true) (hpart : 1 ≤ part.length) (hcut : part.length < l.toNat) :
    scanFrom (recordHeader id l ++ part) (fuel + 1) 0 xs = .error .truncatedInput := by
  have hlen : (recordHeader id l ++ part).length = 3 + part.length := by
    rw [List.length_append, recordHeader_length]
  refine scanFrom_truncates (l := l.toNat) fuel xs (by omega) hid ?_ (by omega)
  show l.toNat = (l.extractLsb' 0 8).toNat + 256 * (l.extractLsb' 8 8).toNat
  rw [header_lo_toNat, header_hi_toNat]
  omega

/-! ### The end of the scan -/

theorem endsScan_nil {rest : List Byte} :
    EndsScan [] rest ↔ (∃ t more, rest = t :: more ∧ isBlockId t = false) ∨ rest.length ≤ 3 := by
  simp [EndsScan]

/-- The scan ends behind one record more where it ends behind the others and the loop guard reaches that record. -/
theorem endsScan_cons {r : Record} {rs : List Record} {rest : List Byte} :
    EndsScan (r :: rs) rest ↔ EndsScan rs rest ∧ 3 < (r.bytes ++ (rs.flatMap Record.bytes ++ rest)).length := by
  have hlen : (r.bytes ++ (rs.flatMap Record.bytes ++ rest)).length =
      3 + r.payload.length + ((rs.flatMap Record.bytes).length + rest.length) := by
    rw [List.length_append, List.length_append, Record.bytes_length]
  have hrs := length_le_flatMap_bytes rs
  rw [hlen]
  cases rest with
  | cons t more =>
    have hsame : EndsScan (r :: rs) (t :: more) ↔ EndsScan rs (t :: more) := by simp [EndsScan]
    rw [hsame, List.length_cons]
    exact (and_iff_left (by omega)).symm
  | nil =>
    cases rs with
    | nil => simp [EndsScan, List.ne_nil_iff_length_pos]
    | cons r' rs =>
      have hsame : EndsScan (r :: r' :: rs) [] ↔ EndsScan (r' :: rs) [] := by simp [EndsScan]
      rw [List.length_cons] at hrs
      rw [hsame]
      exact (and_iff_left (by omega)).symm

/-- The scan of records that stand before such an end accepts them all (R55, R69, R107). -/
theorem scanFrom_accepts {rs : List Record} {rest : List Byte} (fuel : Nat) (xs : List Byte)
    (hrs : ∀ r ∈ rs, r.wellFormed = true) (hend : EndsScan rs rest) :
    scanFrom (rs.flatMap Record.bytes ++ rest) (fuel + rs.length) 0 xs = .ok (xs ++ rs.flatMap recordSamples) := by
  induction rs generalizing xs with
  | nil =>
    rw [List.flatMap_nil, List.flatMap_nil, List.append_nil, List.nil_append]
    rcases endsScan_nil.1 hend with ⟨t, more, rfl, ht⟩ | hshort
    · exact scanFrom_terminator _ xs ht
    · exact scanFrom_ends _ xs (by omega)
  | cons r rs ih =>
    obtain ⟨hr, hrs⟩ := List.forall_mem_cons.1 hrs
    obtain ⟨hend, hguard⟩ := endsScan_cons.1 hend
    rw [List.flatMap_cons, List.append_assoc, List.length_cons, ← Nat.add_assoc, scanFrom_record _ xs hr hguard,
      ih _ hrs hend, List.flatMap_cons, List.append_assoc]

/-- A scan that is not aborted has accepted some records and ended behind them. -/
theorem exists_accepted_of_scanFrom_ok {bytes : List Byte} {fuel : Nat} {xs ys : List Byte}
    (hf : bytes.length ≤ fuel) (h : scanFrom bytes fuel 0 xs = .ok ys) :
    ∃ (rs : List Record) (rest : List Byte), (∀ r ∈ rs, r.wellFormed = true) ∧
      bytes = rs.flatMap Record.bytes ++ rest ∧ EndsScan rs rest := by
  induction fuel generalizing bytes xs with
  | zero => exact ⟨[], bytes, nofun, rfl, endsScan_nil.2 (.inr (by omega))⟩
  | succ fuel ih =>
    rcases scanned_cases bytes with
      hshort | hterm | ⟨r, rest, hr, rfl, hguard⟩ | ⟨id, l, part, hid, rfl, hpart, hcut⟩
    · exact ⟨[], bytes, nofun, rfl, endsScan_nil.2 (.inr hshort)⟩
    · exact ⟨[], bytes, nofun, rfl, endsScan_nil.2 (.inl hterm)⟩
    · rw [scanFrom_record fuel xs hr hguard] at h
      have hrest : rest.length ≤ fuel := by
        rw [List.length_append, Record.bytes_length] at hf
        omega
      obtain ⟨rs, rest', hrs, rfl, hend⟩ := ih hrest h
      exact ⟨r :: rs, rest', List.forall_mem_cons.2 ⟨hr, hrs⟩, by rw [List.flatMap_cons, List.append_assoc],
        endsScan_cons.2 ⟨hend, hguard⟩⟩
    · cases (scanFrom_cut fuel xs hid hpart hcut).symm.trans h

/-! ### The conversion of what the scan accepts -/

/-- The loop of a conversion has more passes than there are records to consume (R105). -/
theorem exists_fuel (rs : List Record) (rest : List Byte) :
    ∃ fuel, (rs.flatMap Record.bytes ++ rest).length + 3 = fuel + 1 + rs.length := by
  have hrs := length_le_flatMap_bytes rs
  refine ⟨(rs.flatMap Record.bytes ++ rest).length + 2 - rs.length, ?_⟩
  rw [List.length_append]
  omega

/-- `convert_leadIn`, for any three bytes. -/
theorem convert_append_leadIn {lead : List Byte} (h : lead.length = leadInBytes) (rest : List Byte) :
    convert (lead ++ rest) = (scanFrom rest (rest.length + 3) 0 preamble).bind closeStream := by
  obtain ⟨b0, b1, b2, rfl⟩ := List.length_eq_three.1 h
  exact convert_leadIn b0 b1 b2 rest

/-- An input in which the loop guard never holds has no records (R108). -/
theorem convert_short {bytes : List Byte} (h : bytes.length ≤ 6) :
    convert bytes = wavContainer (sampleStream []) := by
  have hguard : ¬ leadInBytes + 3 < bytes.length := by rw [leadInBytes]; omega
  rw [convert_eq, scanFrom_ends _ preamble hguard, ← closeStream_records, List.flatMap_nil, List.append_nil]

/-- A conversion gives the container of the records its scan accepts (R69, R104). -/
theorem convert_accepts {bytes : List Byte} {rs : List Record} (h : Accepts bytes rs) :
    convert bytes = wavContainer (sampleStream rs) := by
  obtain ⟨hrs, ⟨lead, rest, hlead, rfl, hend⟩ | ⟨hshort, rfl⟩⟩ := h
  · obtain ⟨fuel, hfuel⟩ := exists_fuel rs rest
    rw [List.append_assoc, convert_append_leadIn hlead, hfuel, scanFrom_accepts (fuel + 1) preamble hrs hend,
      closeStream_records]
  · exact convert_short (by rw [leadInBytes] at hshort; omega)

/-- A successful conversion accepts some records. -/
theorem exists_accepts_of_convert_ok {bytes out : List Byte} (h : convert bytes = .ok out) :
    ∃ rs, Accepts bytes rs := by
  rcases Nat.lt_or_ge bytes.length leadInBytes with hshort | hlong
  · exact ⟨[], nofun, .inr ⟨hshort, rfl⟩⟩
  · obtain ⟨lead, rest, rfl, hlead⟩ : ∃ lead rest, bytes = lead ++ rest ∧ lead.length = leadInBytes :=
      ⟨_, _, (List.take_append_drop leadInBytes bytes).symm, List.length_take_of_le hlong⟩
    rw [convert_append_leadIn hlead] at h
    rcases hs : scanFrom rest (rest.length + 3) 0 preamble with e | ys <;> rw [hs] at h
    · cases h
    · obtain ⟨rs, rest', hrs, rfl, hend⟩ := exists_accepted_of_scanFrom_ok (by omega) hs
      exact ⟨rs, hrs, .inl ⟨lead, rest', hlead, (List.append_assoc _ _ _).symm, hend⟩⟩

/-- An input of a lead-in, well-formed records and an end of the scan accepts the records. -/
theorem accepts_leadIn {b0 b1 b2 : Byte} {rs : List Record} {rest : List Byte} (hrs : ∀ r ∈ rs, r.wellFormed = true)
    (hend : EndsScan rs rest) : Accepts ([b0, b1, b2] ++ rs.flatMap Record.bytes ++ rest) rs :=
  ⟨hrs, .inl ⟨[b0, b1, b2], rest, rfl, rfl, hend⟩⟩

/-- A cut record behind a lead-in and well-formed records aborts the conversion (R97, R131). -/
theorem convert_cut {lead part : List Byte} {id : Byte} {l : Length} {rs : List Record}
    (hlead : lead.length = leadInBytes) (hrs : ∀ r ∈ rs, r.wellFormed = true) (hid : isBlockId id = true)
    (hpart : 1 ≤ part.length) (hcut : part.length < l.toNat) :
    convert (lead ++ (rs.flatMap Record.bytes ++ (recordHeader id l ++ part))) = .error .truncatedInput := by
  obtain ⟨fuel, hfuel⟩ := exists_fuel rs (recordHeader id l ++ part)
  have hne : recordHeader id l ++ part ≠ [] := List.cons_ne_nil _ _
  rw [convert_append_leadIn hlead, hfuel, scanFrom_records (fuel + 1) preamble hrs hne,
    scanFrom_cut fuel _ hid hpart hcut]
  rfl

/-! ### The number of samples (R109) -/

theorem recordSamples_length (r : Record) :
    (recordSamples r).length = 4842 + (r.payload.map byteSamples).sum := by
  simp only [recordSamples, List.length_append, blockSyncPulses_length, payloadPulses_length, bytePulses_length]

theorem flatMap_recordSamples_length (rs : List Record) :
    (rs.flatMap recordSamples).length =
      4842 * rs.length + ((rs.flatMap Record.payload).map byteSamples).sum := by
  induction rs with
  | nil => rfl
  | cons r rs ih =>
    simp only [List.flatMap_cons, List.length_append, List.map_append, List.sum_append, List.length_cons, ih,
      recordSamples_length]
    omega

theorem sampleStream_length (rs : List Record) : (sampleStream rs).length = dataLength rs := by
  rw [sampleStream_eq]
  simp only [List.length_append, silence_length, fileSyncPulses_length, flatMap_recordSamples_length, leadSilence,
    tailSilence, dataLength]
  omega

theorem eq_of_wavContainer_eq_ok {samples out : List Byte} (h : wavContainer samples = .ok out) :
    out = wavHeaderBytes samples.length ++ samples := by
  rcases wavContainer_cases samples with ⟨-, e⟩ | ⟨-, e⟩ <;> cases e.symm.trans h
  rfl

end Sys2Proof.Machine
end

section
/-! The statements about whole conversions. -/

open Sys2Proof Sys2Proof.Machine

/-- Settles O37: the block comes to rest with the reference function's outcome. -/
theorem conversionComputesTheReference : Obligations.ConversionComputesTheReference := by
  intro s hq hi hc
  obtain ⟨t, hst, -, -, ho⟩ := comesToRest_convert hq hi hc
  exact ⟨t, hst, ho⟩

/-- Settles O43: the result is the container of the records the input accepts, whose stream has dataLength samples. -/
theorem sampleCountHasItsClosedForm : Obligations.SampleCountHasItsClosedForm := by
  intro bytes out h
  refine ⟨exists_accepts_of_convert_ok h, fun rs hacc => ?_⟩
  have hout := eq_of_wavContainer_eq_ok ((convert_accepts hacc).symm.trans h)
  have hlen : (sampleStream rs).length = dataLength rs := sampleStream_length rs
  subst hout
  refine ⟨?_, ?_⟩
  · rw [List.drop_left' (wavHeaderBytes_length _)]
    exact hlen
  · rw [List.length_append, wavHeaderBytes_length, hlen]
    rfl

/-- Settles O44: a terminator ends the scan whatever follows it, and so does the end of the input where the last record
has a payload. -/
theorem nothingAfterATerminatorCounts : Obligations.NothingAfterATerminatorCounts := by
  intro b0 b1 b2 t rs rest rest' hrs ht
  have hterm (more : List Byte) :
      convert ([b0, b1, b2] ++ rs.flatMap Record.bytes ++ t :: more) = wavContainer (sampleStream rs) :=
    convert_accepts (accepts_leadIn hrs (.inl ⟨t, more, rfl, ht⟩))
  refine ⟨(hterm rest).trans (hterm rest').symm, fun hlast => (hterm rest).trans ?_⟩
  rw [← convert_accepts (accepts_leadIn hrs (rest := []) (.inr ⟨Nat.zero_le 3, fun _ => hlast⟩)),
    List.append_nil]

/-- Settles O45: with at most three bytes left the loop guard fails. -/
theorem trailingBytesAreIgnored : Obligations.TrailingBytesAreIgnored := by
  intro b0 b1 b2 rs trailing hrs hpos hle
  exact convert_accepts (accepts_leadIn hrs (.inr ⟨hle, fun hnil => absurd hnil (List.length_pos_iff.1 hpos)⟩))

/-- Settles O46: the records before the cut one are consumed, and the cut one aborts. -/
theorem truncatedInputGivesNoResult : Obligations.TruncatedInputGivesNoResult := by
  intro b0 b1 b2 id rs l part hrs hid hpart hcut
  rw [convertOutcome_eq, ← convert_eq, List.append_assoc, List.append_assoc, convert_cut rfl hrs hid hpart hcut]
  rfl

/-- Settles O47: the loop guard fails at once, and the stream of no records fits a header. -/
theorem shortInputsGiveTheEmptyStream : Obligations.ShortInputsGiveTheEmptyStream := by
  intro bytes hle
  have hlen : (sampleStream []).length = 48056 := sampleStream_length []
  have hconv : convert bytes = .ok (wavHeaderBytes 48056 ++ sampleStream []) := by
    rw [convert_short hle, wavContainer_ok (by rw [hlen]; decide), hlen]
  refine ⟨?_, fun out hout => ?_⟩
  · rw [hconv, sampleStream, fileSyncPulses_eq_flatten, List.flatMap_nil, List.append_nil]
    rfl
  · cases hconv.symm.trans hout
    rw [List.length_append, wavHeaderBytes_length, hlen]

end

section
/-! SUPPORT. How a conversion ends: a measure that every step of a busy block lowers, and a command's fate in a fair run
(R105, R158). -/

namespace Sys2Proof.Machine

/-! ### The steps of a busy block -/

/-- A bound on the steps that a block takes before it is quiescent. -/
def stepsLeft (s : State) : Nat :=
  match s.phase with
  | .init => s.n + 5
  | .leadIn => s.n + 4
  | .scan => s.n - s.cur.value + 3
  | .tail => 2
  | .final => 1
  | .idle | .done | .error => 0

theorem stepsLeft_le (s : State) : stepsLeft s ≤ s.n + 5 := by
  unfold stepsLeft
  split <;> omega

/-- A command has ended, in success or in error. -/
def Ended (s : State) : Prop := s.phase = .done ∨ s.phase = .error

/-- A step of a busy block comes nearer to the end, and takes no command. -/
theorem Stepped.of_busy {s t : State} (hst : Stepped s t) (hb : s.phase.busy = true) :
    t.issued = s.issued ∧ stepsLeft t < stepsLeft s ∧ (Ended t ∨ t.phase.busy = true) := by
  have hbusy : ¬ s.phase.quiescent = true := Bool.eq_false_iff.1 (Phase.busy_iff.1 hb)
  cases hst with
  | waits hq | starts hq | delivers hq | rejects hq => exact absurd hq hbusy
  | init hp => exact ⟨rfl, by simp [stepsLeft, hp, initStep], .inr rfl⟩
  | leadIn hp =>
    refine ⟨rfl, ?_, .inr rfl⟩
    simp only [stepsLeft, hp, leadInStep, State.setPhase_phase, State.setPhase_n, State.setPhase_cur, State.setCur_n,
      State.setCur_cur, State.append_n, Latch.write_value]
    omega
  | scanEnds hp | terminates hp => exact ⟨rfl, by simp [stepsLeft, hp], .inr rfl⟩
  | consumes hp hg id len =>
    refine ⟨rfl, ?_, .inr (by rw [consumed_phase, hb])⟩
    simp only [stepsLeft, consumed_phase, hp, consumed_n, consumed_cur, Latch.write_value, recordEnd_eq]
    omega
  | truncates hp => exact ⟨rfl, by simp [stepsLeft, hp, truncated], .inl (.inr rfl)⟩
  | tail hp => exact ⟨rfl, by simp [stepsLeft, hp, tailStep], .inr rfl⟩
  | composes hp => exact ⟨rfl, by simp [stepsLeft, hp], .inl (.inl rfl)⟩
  | overflows hp => exact ⟨rfl, by simp [stepsLeft, hp], .inl (.inr rfl)⟩

/-- A busy block ends within the steps that are left (R105). -/
theorem exists_steps_ended (s : State) (hb : s.phase.busy = true) :
    ∃ k t, k ≤ stepsLeft s ∧ steps k s = .next t ∧ Ended t := by
  obtain ⟨t, hstep, hst⟩ := step_cases s
  obtain ⟨-, hlt, hend | hb'⟩ := hst.of_busy hb
  · exact ⟨1, t, by omega, steps_succ 0 hstep, hend⟩
  · obtain ⟨k, u, hk, hsteps, hend⟩ := exists_steps_ended t hb'
    exact ⟨k + 1, u, by omega, (steps_succ k hstep).trans hsteps, hend⟩
termination_by stepsLeft s

/-! ### Runs without end -/

section
variable {es : Nat → Option Event} {ss : Nat → State}

theorem IsRun.event (h : IsRun es ss) {k : Nat} {e : Event} (he : es k = some e) :
    Machine.event e (ss k) = some (ss (k + 1)) := by
  have hk := h k
  rwa [he] at hk

theorem IsRun.stepped (h : IsRun es ss) {k : Nat} (he : es k = some .blockStep) : Stepped (ss k) (ss (k + 1)) :=
  stepped_of_step (event_blockStep.1 (h.event he))

/-- Where the block takes no step, its state stays or the host moves. -/
theorem IsRun.stays_or_moves (h : IsRun es ss) {k : Nat} (hs : es k ≠ some .blockStep) :
    ss (k + 1) = ss k ∨ ∃ m, es k = some (.host m) ∧ hostMove m (ss k) = some (ss (k + 1)) := by
  rcases he : es k with _ | _ | m
  · have hk := h k
    rw [he] at hk
    exact .inl hk
  · exact absurd he hs
  · exact .inr ⟨m, rfl, h.event he⟩

theorem State.canStep_iff {s : State} : s.canStep = true ↔ s.phase.busy = true ∨ s.issued = true :=
  Bool.or_eq_true_iff

/-- A command waits in a phase in which it is accepted. -/
def CommandWaits (s : State) : Prop := s.phase.quiescent = true ∧ s.issued = true

/-- Its acceptance takes the command, and ends it or starts a conversion (R35, R153). -/
theorem Stepped.of_commandWaits {s t : State} (hst : Stepped s t) (hw : CommandWaits s) :
    t.issued = false ∧ (Ended t ∨ t.phase.busy = true) := by
  obtain ⟨hq, hi⟩ := hw
  cases hst with
  | waits _ hi' => exact absurd hi (Bool.eq_false_iff.1 hi')
  | starts => exact ⟨rfl, .inr rfl⟩
  | delivers => exact ⟨rfl, .inl (.inl rfl)⟩
  | rejects => exact ⟨rfl, .inl (.inr rfl)⟩
  | init hp | leadIn hp | scanEnds hp | terminates hp | consumes hp | truncates hp | tail hp | composes hp
  | overflows hp => rw [hp] at hq; cases hq

/-- No host move but a reset takes a waiting command back. -/
theorem CommandWaits.hostMoved {m : HostMove} {s t : State} (hw : CommandWaits s) (hm : m ≠ .reset)
    (h : Machine.hostMove m s = some t) : CommandWaits t := by
  rcases hostMove_cases h with ⟨bytes, -, -, rfl⟩ | ⟨c, -, -, rfl⟩ | ⟨v, -, rfl⟩ | ⟨rfl, -⟩
  · exact hw
  · exact ⟨hw.1, rfl⟩
  · exact hw
  · exact absurd rfl hm

variable (hrun : IsRun es ss) (hfair : IsFair es ss)
include hrun hfair

/-- In a fair run without a reset a waiting command is accepted. -/
theorem exists_taken_of_commandWaits {k : Nat} (hno : ∀ j, k ≤ j → es j ≠ some (.host .reset))
    (hw : CommandWaits (ss k)) : ∃ j, k < j ∧ (ss j).issued = false ∧ (Ended (ss j) ∨ (ss j).phase.busy = true) := by
  obtain ⟨j, hj, he, hwj⟩ := hfair.next_step (fun s hs => State.canStep_iff.2 (.inr hs.2)) hw fun j hj hwj hs => by
    rcases hrun.stays_or_moves hs with e | ⟨m, he, hm⟩
    · rwa [e]
    · exact hwj.hostMoved (fun hm => hno j hj (hm ▸ he)) hm
  exact ⟨j + 1, by omega, (hrun.stepped he).of_commandWaits hwj⟩

/-- In a fair run without a reset a conversion ends, and leaves the waiting bit as it was (R158). -/
theorem exists_ended_of_busy (k : Nat) (hno : ∀ j, k ≤ j → es j ≠ some (.host .reset))
    (hb : (ss k).phase.busy = true) : ∃ j, k < j ∧ (ss j).issued = (ss k).issued ∧ Ended (ss j) := by
  have hcan : (ss k).canStep = true := State.canStep_iff.2 (.inl hb)
  obtain ⟨j, hj, he, hsame⟩ := hfair.next_step (P := (· = ss k)) (fun s hs => hs ▸ hcan) rfl
    fun j hj hsame hs => by
      rcases hrun.stays_or_moves hs with e | ⟨m, he, hm⟩
      · rwa [e]
      · rw [hsame] at hm
        exact busyBlockIsLeftAlone m _ _ hb (fun hm => hno j hj (hm ▸ he)) hm
  have hst := hrun.stepped he
  rw [hsame] at hst
  obtain ⟨hi, hlt, hend | hb'⟩ := hst.of_busy hb
  · exact ⟨j + 1, by omega, hi, hend⟩
  · obtain ⟨l, hl, hil, hend⟩ := exists_ended_of_busy (j + 1) (fun l hl => hno l (by omega)) hb'
    exact ⟨l, by omega, hil.trans hi, hend⟩
termination_by stepsLeft (ss k)

/-- A waiting command is accepted and comes to its end. -/
theorem exists_ended_of_commandWaits {k : Nat} (hno : ∀ j, k ≤ j → es j ≠ some (.host .reset))
    (hw : CommandWaits (ss k)) : ∃ j, k < j ∧ (ss j).issued = false ∧ Ended (ss j) := by
  obtain ⟨j, hj, hi, hend | hb⟩ := exists_taken_of_commandWaits hrun hfair hno hw
  · exact ⟨j, hj, hi, hend⟩
  · obtain ⟨l, hl, hil, hend⟩ := exists_ended_of_busy hrun hfair j (fun l hl => hno l (by omega)) hb
    exact ⟨l, by omega, hil.trans hi, hend⟩

/-- A block that can step comes to rest; a command that waits while the block is busy is accepted after that. -/
theorem exists_rest {k : Nat} (hno : ∀ j, k ≤ j → es j ≠ some (.host .reset)) (hc : (ss k).canStep = true) :
    ∃ j, k < j ∧ (ss j).issued = false ∧ Ended (ss j) := by
  rcases hb : (ss k).phase.busy with _ | _
  · have hi : (ss k).issued = true := (State.canStep_iff.1 hc).resolve_left (by simp [hb])
    exact exists_ended_of_commandWaits hrun hfair hno ⟨by simpa [Phase.busy] using hb, hi⟩
  · obtain ⟨j, hj, -, hend⟩ := exists_ended_of_busy hrun hfair k hno hb
    rcases hi : (ss j).issued with _ | _
    · exact ⟨j, hj, hi, hend⟩
    · have hq : (ss j).phase.quiescent = true := by rcases hend with hp | hp <;> rw [hp] <;> rfl
      obtain ⟨l, hl, h⟩ := exists_ended_of_commandWaits hrun hfair (fun l hl => hno l (by omega)) ⟨hq, hi⟩
      exact ⟨l, by omega, h⟩

end

end Sys2Proof.Machine
end

section
/-! SUPPORT. The SCAN step by the literal fields it writes. -/

namespace Sys2Proof.Machine

/-- Everything a consumed record writes, its payload byte by byte (R98 to R100). -/
theorem consumed_eq (id : Byte) (len : Length) (s : State) :
    consumed id len s = { s with
      id := ⟨id, true⟩, len := ⟨len, true⟩, cur := ⟨s.cur.value + 3 + len.toNat, true⟩,
      out := s.out ++ (blockSyncPulses ++ (List.range len.toNat).flatMap fun k =>
        bytePulses (Memory.read s.input (s.cur.value + 3 + k))) } := by
  have hpayload : payloadPulses ((List.range len.toNat).map fun k => Memory.read s.input (s.cur.value + 3 + k)) =
      (List.range len.toNat).flatMap fun k => bytePulses (Memory.read s.input (s.cur.value + 3 + k)) :=
    List.flatMap_map _ _ _
  rw [← hpayload]
  rfl

/-- A data id's record is run by the instruction of that id. -/
theorem exec_block {id : Byte} (hid : isBlockId id = true) (len : Length) (s : State) :
    exec (if id = 0x55#8 then .block55 len else .blockAA len) s = runBlock id len s := by
  rcases isBlockId_iff.1 hid with rfl | rfl <;> rfl

/-- The bytes of IN from an offset on, the first three of them one by one. -/
theorem inBytes_drop_eq_cons {s : State} {c : Nat} (h : c + 3 ≤ s.n) :
    ∃ rest, s.inBytes.drop c =
      Memory.read s.input c :: Memory.read s.input (c + 1) :: Memory.read s.input (c + 2) :: rest := by
  have hhead : (s.inBytes.drop c).take 3 =
      [Memory.read s.input c, Memory.read s.input (c + 1), Memory.read s.input (c + 2)] := State.inBytes_slice s c 3 h
  exact ⟨_, (List.take_append_drop 3 _).symm.trans (congrArg (· ++ (s.inBytes.drop c).drop 3) hhead)⟩

/-- The SCAN step fetches no more than the decoder looks at: it runs what the rest of IN decodes to (R95, R96). -/
theorem scanStep_eq_exec {s : State} {i : Instr} (hg : s.cur.value + 3 < s.n)
    (hi : decodeRecord (s.inBytes.drop s.cur.value) = .ok i) : scanStep s = exec i s := by
  obtain ⟨rest, hbytes⟩ := inBytes_drop_eq_cons (Nat.le_of_lt hg)
  rw [hbytes] at hi
  rcases hb : isBlockId (Memory.read s.input s.cur.value) with _ | _
  · cases (decodeRecord_terminator hb _).symm.trans hi
    exact scanStep_terminator hg hb
  · cases (decodeRecord_block hb _).symm.trans hi
    rw [exec_block hb]
    exact scanStep_block hg hb

end Sys2Proof.Machine
end

section
/-! The statements about the steps of a conversion, and its end. -/

open Sys2Proof Sys2Proof.Machine

/-- Settles O32: the two length bytes are the instruction's length, and the record lies within IN. -/
theorem scanConsumesACompleteRecord : Obligations.ScanConsumesACompleteRecord := by
  intro s id lo hi L hp hg hid hblock hlo hhi hL hfits
  obtain ⟨-, rfl⟩ := State.byteAt_eq_some.1 hid
  obtain ⟨-, rfl⟩ := State.byteAt_eq_some.1 hlo
  obtain ⟨-, rfl⟩ := State.byteAt_eq_some.1 hhi
  rw [← assembleLength_toNat] at hL
  subst hL
  rw [step_scan hp, scanStep_block hg (isBlockId_iff.2 hblock), runBlock_consumes hfits, consumed_eq,
    BitVec.ofNat_toNat, BitVec.setWidth_eq]

/-- Settles O38: a measure bounds the steps of a busy block, and in a fair run the block takes them; a command that waits
behind them is then accepted, and ends in the same way. -/
theorem everyConversionEnds : Obligations.EveryConversionEnds := by
  refine ⟨fun s hb => ?_, fun es ss hrun hfair k hc hno => ?_⟩
  · obtain ⟨k, t, hk, hsteps, hend⟩ := exists_steps_ended s hb
    exact ⟨k, t, hk.trans (stepsLeft_le s), hsteps, hend⟩
  · obtain ⟨j, hj, hi, hend⟩ := exists_rest hrun hfair hno hc
    exact ⟨j, hj, hend, hi⟩

/-- Settles O13: the step decodes as much of IN as the decoder reads. -/
theorem scanRunsTheDecodedRecord : Obligations.ScanRunsTheDecodedRecord :=
  fun _ _ hp hg hi => (step_scan hp).trans (scanStep_eq_exec hg hi)

/-- Settles O25: code 0x07 is CONVERT, whose acceptance also takes the command. -/
theorem convertStartsAConversion : Obligations.ConvertStartsAConversion := by
  refine fun arg s => ⟨rfl, rfl, fun hq hi hc => ?_⟩
  exact (step_accepts hq hi).trans (acceptStep_convert (by rw [hc]))

/-- Settles O26, by the step of the phase. -/
theorem initStepEmptiesTheBuffer : Obligations.InitStepEmptiesTheBuffer := fun _ hp => step_init hp

/-- Settles O27: the step appends the two runs of the preamble. -/
theorem leadInStepEmitsThePreamble : Obligations.LeadInStepEmitsThePreamble := by
  intro s hp
  rw [← fileSyncPulses_eq_flatten]
  refine ⟨step_leadIn hp, fun hempty t ht => ?_⟩
  cases (step_leadIn hp).symm.trans ht
  have hout : (leadInStep s).out = preamble := by simp [leadInStep, hempty, preamble]
  rw [hout, preamble_length]

/-- Settles O28, by the SCAN step without its guard. -/
theorem scanEndsWhereTheGuardFails : Obligations.ScanEndsWhereTheGuardFails :=
  fun _ hp hg => (step_scan hp).trans (scanStep_ends hg)

/-- Settles O29: an id that is no data id is a terminator's. -/
theorem terminatorEndsTheScan : Obligations.TerminatorEndsTheScan := by
  refine ⟨fun _ _ => rfl, fun s id hp hg hid h55 hAA => ?_⟩
  obtain ⟨-, rfl⟩ := State.byteAt_eq_some.1 hid
  exact (step_scan hp).trans (scanStep_terminator hg (isBlockId_eq_false.2 ⟨h55, hAA⟩))

/-- Settles O30: both records are `runBlock`, here within IN. -/
theorem blockRecordsEmitTheirPayload : Obligations.BlockRecordsEmitTheirPayload := by
  intro len s hfits
  rw [← consumed_eq, ← consumed_eq]
  exact ⟨runBlock_consumes hfits, runBlock_consumes hfits⟩

/-- Settles O31: both records are `runBlock`, here past the end of IN. -/
theorem blockRecordsAbortWhenTruncated : Obligations.BlockRecordsAbortWhenTruncated :=
  fun _ _ hcut => ⟨runBlock_truncates hcut, runBlock_truncates hcut⟩

/-- Settles O35, by the step of the phase. -/
theorem tailStepEmitsSilence : Obligations.TailStepEmitsSilence := fun _ hp => step_tail hp

/-- Settles O36: the largest size that a header can declare decides between the two outcomes. -/
theorem finalStepComposesTheContainer : Obligations.FinalStepComposesTheContainer := by
  intro s hp
  rw [step_final hp]
  rcases finalStep_cases s with ⟨hle, e⟩ | ⟨hgt, e⟩ <;> rw [e]
  · exact ⟨fun _ => rfl, fun hgt => absurd hgt (Nat.not_lt.2 hle)⟩
  · exact ⟨fun hle => absurd hgt (Nat.not_lt.2 hle), fun _ => rfl⟩

end

section
/-! SUPPORT. What a little-endian field reads back as, where the header's two sizes stand, and the two outcomes of
WAV_HEADER. -/

namespace Sys2Proof.Machine

/-- The four bytes of a value that fits 32 bits read back as the value (R38). -/
theorem fromLe_le32 {v : Nat} (h : v < 2 ^ 32) : fromLe (le32 v) = v := by
  simp only [le32, fromLe, BitVec.toNat_ofNat]
  omega

/-- The RIFF chunk size is the field at offset 4 (R112). -/
theorem wavHeaderBytes_riffSize (count : Nat) :
    ((wavHeaderBytes count).drop 4).take 4 = le32 (36 + count) := rfl

/-- The data chunk size is the field at offset 40 (R123). -/
theorem wavHeaderBytes_dataSize (count : Nat) : ((wavHeaderBytes count).drop 40).take 4 = le32 count := rfl

section
variable {arg : Nat} (s : State)

theorem exec_wavHeader_of_le (h : arg ≤ maxSamples) :
    exec (.wavHeader arg) s = .next (s.clearErr.deliver (wavHeaderBytes arg)) := by
  rw [exec, execWavHeader, sizeOperand_ok h]; rfl

theorem exec_wavHeader_of_gt (h : maxSamples < arg) :
    exec (.wavHeader arg) s = .next (s.clearErr.raise .sizeOverflow) := by
  rw [exec, execWavHeader, sizeOperand_error h]; rfl

end

end Sys2Proof.Machine
end

section
/-! The statements about the WAV header. -/

open Sys2Proof Sys2Proof.Machine

/-- Settles O23: the largest size that a header can declare decides between the two outcomes, and the fields of the
header are the bytes written out. -/
theorem wavHeaderGivesItsBytes : Obligations.WavHeaderGivesItsBytes :=
  fun _ s => ⟨rfl, exec_wavHeader_of_le s, exec_wavHeader_of_gt s⟩

/-- Settles O24: both sizes fit 32 bits, so that each field reads back as its value. -/
theorem headerDeclaresItsSizes : Obligations.HeaderDeclaresItsSizes := by
  intro count hcount
  rw [wavHeaderBytes_dataSize, wavHeaderBytes_riffSize]
  exact ⟨wavHeaderBytes_length count, fromLe_le32 (by omega), fromLe_le32 (by omega)⟩

end

section
/-! SUPPORT. The SCAN step on a data record of which the three header bytes are known, and the one cause of each step
into ERROR. -/

namespace Sys2Proof.Machine

variable {s t : State}

/-- The header bytes at CUR fix the record that the step runs (R95, R96). -/
theorem step_dataRecord {id lo hi : Byte} (hp : s.phase = .scan) (hg : s.cur.value + 3 < s.n)
    (hid : s.byteAt s.cur.value = some id) (hb : isBlockId id = true) (hlo : s.byteAt (s.cur.value + 1) = some lo)
    (hhi : s.byteAt (s.cur.value + 2) = some hi) : step s = runBlock id (assembleLength lo hi) s := by
  obtain ⟨-, rfl⟩ := State.byteAt_eq_some.1 hid
  obtain ⟨-, rfl⟩ := State.byteAt_eq_some.1 hlo
  obtain ⟨-, rfl⟩ := State.byteAt_eq_some.1 hhi
  exact (step_scan hp).trans (scanStep_block hg hb)

/-- A step of a block that does not merely wait enters ERROR only by the abort of a truncated record, of an oversized
stream, or of a rejected command; each of them empties OUT (R127 to R132). -/
theorem Stepped.error_cause (hst : Stepped s t) (ht : t.phase = .error)
    (hact : s.phase.busy = true ∨ s.issued = true) :
    t.out = [] ∧
    ((s.phase = .scan ∧ t.err = .truncatedInput ∧ s.n < recordEnd s.cur.value t.len.value) ∨
     (s.phase = .final ∧ t.err = .sizeOverflow ∧ maxSamples < s.out.length) ∨
     (s.phase.quiescent = true ∧ Rejects s.cmd t.err)) := by
  cases hst with
  | truncates hp _ _ _ _ _ hcut => exact ⟨rfl, .inl ⟨hp, rfl, hcut⟩⟩
  | overflows hp hover => exact ⟨rfl, .inr (.inl ⟨hp, rfl, hover⟩)⟩
  | rejects hq _ _ hrej => exact ⟨rfl, .inr (.inr ⟨hq, hrej⟩)⟩
  | waits hq hi =>
    rcases hact with hb | hi'
    · exact absurd hq (Bool.eq_false_iff.1 (Phase.busy_iff.1 hb))
    · exact absurd hi' (Bool.eq_false_iff.1 hi)
  | consumes hp => rw [consumed_phase, hp] at ht; cases ht
  | starts | delivers | init | leadIn | scanEnds | terminates | tail | composes => cases ht

end Sys2Proof.Machine
end

section
/-! The statements about errors, and the block at rest. -/

open Sys2Proof Sys2Proof.Machine

/-- Settles O33: the two length bytes are the instruction's length, and the record runs past the end of IN. -/
theorem scanAbortsOnATruncatedRecord : Obligations.ScanAbortsOnATruncatedRecord := by
  intro s id lo hi L hp hg hid hblock hlo hhi hL hcut
  rw [← assembleLength_toNat] at hL
  subst hL
  rw [step_dataRecord hp hg hid (isBlockId_iff.2 hblock) hlo hhi, runBlock_truncates hcut, BitVec.ofNat_toNat,
    BitVec.setWidth_eq]
  rfl

/-- Settles O54, by the causes of a step into ERROR. -/
theorem everyErrorHasItsCause : Obligations.EveryErrorHasItsCause :=
  fun _ _ h ht hact => (stepped_of_step h).error_cause ht hact

/-- Settles O15, by the step of a block that waits. -/
theorem idleBlockKeepsItsState : Obligations.IdleBlockKeepsItsState := fun _ => step_waits

end

section
/-! The statements about resets, host moves and the acceptance of a command. -/

open Sys2Proof Sys2Proof.Machine

/-- Settles O5, by the cases of a host move: a load brings a canonical IN, and a reset leaves what IDLE asks for. -/
theorem everyHostMoveKeepsTheInvariant : Obligations.EveryHostMoveKeepsTheInvariant :=
  fun _ _ _ hinv hmove => hinv.hostMoved hmove

/-- Settles O2: the state after the move is `State.restart`, whose fields but IN, N and CMD are those of reset. -/
theorem resetInAnyPhaseDiscardsTheCommand : Obligations.ResetInAnyPhaseDiscardsTheCommand :=
  fun s => ⟨s.restart, rfl, rfl, rfl, rfl, rfl, rfl, rfl, rfl, rfl⟩

/-- Settles O12: the step accepts, and acceptance runs what CMD decodes to. -/
theorem acceptanceRunsTheDecodedCommand : Obligations.AcceptanceRunsTheDecodedCommand :=
  fun _ _ hquiet hissued hdec => (step_accepts hquiet hissued).trans (acceptStep_ok hdec)

end
